-- ==== Sys2Proof/Word.lean ====
section
/-! DEFINITION. The words the block's registers, ports and lines are made of (00_scope.md R18 and R20, 10_state.md
R30, 30_encoding.md R100 to R108). Bit 0 is the least significant bit of every word (R20). -/

namespace Sys2Proof

/-- A byte of a Frame (20_memory.md R76). -/
abbrev Byte := BitVec 8

/-- A line level or a pixel value: `true` is 1, high (00_scope.md R20). -/
abbrev Level := Bool

/-- A Bank Index, BANK_W = 2 bits (00_scope.md R18). -/
abbrev Bank := BitVec 2

/-- A PH code of format PH4 (30_encoding.md R100). -/
abbrev PhaseCode := BitVec 4

/-- A row index, ROW[3:0] (10_state.md R33). -/
abbrev RowIdx := BitVec 4

/-- A column index, COL[5:0] (10_state.md R34). -/
abbrev ColIdx := BitVec 6

/-- The output port word OUT[13:0] (30_encoding.md R104). -/
abbrev OutWord := BitVec 14

/-- The sequencer position word of format SEQ14 (30_encoding.md R102). -/
abbrev Seq14 := BitVec 14

/-- The bank write port word of format BPORT3 (30_encoding.md R108). -/
abbrev PortWord := BitVec 3

end Sys2Proof
end

