-- ==== Sys2Proof/Config.lean ====
section
/-! DEFINITION. The parameters of 00_scope.md §4 (R7 to R19): the fixed ones as constants, the OPEN ones as plain data
that is an ARGUMENT of the model (10_state.md R30). State carries the OPEN ones as constants that no step writes, so a
statement about every state is a statement about every value of them (00_scope.md R24; log entry 2). -/

namespace Sys2Proof

/-- Columns shifted per row (R7). -/
abbrev COLS : Nat := 64

/-- Row addresses scanned per frame (R8). -/
abbrev ROWS : Nat := 16

/-- Pixel planes, upper and lower (R9). -/
abbrev PLANES : Nat := 2

/-- Frames in the Frame Store (R10). -/
abbrev NBANKS : Nat := 4

/-- Byte offset of the pixel-data region in every Frame blob (R11). -/
abbrev HDR_OFF : Nat := 0x3B

/-- Output lines the block owns (R17). -/
abbrev NLINES : Nat := 14

/-- Width of the Bank Selector register (R18). -/
abbrev BANK_W : Nat := 2

/-- The least length of a Frame blob, `HDR_OFF + 256` (R13, 90_conflicts.md C10, 60_exceptions.md R226). -/
abbrev MIN_FRAME_LEN : Nat := HDR_OFF + 256

/-- INIT_LEVELS (R16): the level of each driven line when the block leaves reset, set by the platform's pin
initialization, which is out of scope. -/
structure InitLevels where
  gUp : Level
  gLo : Level
  clk : Level
  lat : Level
  oe  : Level
  a   : Level
  b   : Level
  c   : Level
  d   : Level
  deriving DecidableEq, Repr

/-- The OPEN parameters of the block other than the Frame Store. -/
structure Config where
  /-- TBO, the source's `total_bytes_from_offset`: a mathematical integer with no stated value (R12, R21). -/
  tbo        : Int
  /-- INIT_LEVELS (R16). -/
  initLevels : InitLevels
  /-- COOP_SCHED: bank-writer steps only in states with PH = LWAIT (43_bank_select.md R204). -/
  coopSched  : Bool
  /-- LATCH_DELAY in nanoseconds (R15): read by the timed refinement of Machine/Timing.lean only (R274). -/
  latchDelay : Nat
  deriving DecidableEq, Repr

/-- PANEL_CLK_EDGE (R19, 10_state.md R51): the CLK transition on which the panel shifts. -/
inductive ClkEdge where
  | rising
  | falling
  deriving DecidableEq, Repr

/-- PANEL_LAT_MODE (R19, 10_state.md R52): when the panel copies its shift register to its output latch. No mode is
the default. -/
inductive LatMode where
  | rise
  | fall
  | transparentHigh
  deriving DecidableEq, Repr

/-- The OPEN parameters of the panel observer (R19, 10_state.md §6); no rule of the block reads them. -/
structure PanelConfig where
  /-- PANEL_CLK_EDGE. PRESUMED by the spec itself (93_implementation_defined.md G3): its default is rising. -/
  clkEdge : ClkEdge := .rising
  /-- PANEL_LAT_MODE. -/
  latMode : LatMode
  /-- PANEL_COL_MAP (10_state.md R54): entry j is the physical column at which SR / OLAT position j is shown. -/
  colMap  : Vector (Fin 64) 64
  deriving DecidableEq, Repr

namespace Machine

/-- What an address no cell lists reads as. DESIGN CHOICE (log entry 5): FRAME[b][a] is OPEN (00_scope.md R14), and
every content can be listed, so this only fixes how a content is written down. -/
def unlistedByte : Byte := 0#8

/-- One Frame blob: L[b] (00_scope.md R13) and FRAME[b][a] (R14) as a list of (address, byte) pairs in one canonical
form (`Frame.wf`). -/
structure Frame where
  len   : Nat
  cells : List Host.Cell
  deriving DecidableEq, Repr

/-- The Frame Store: four read-only Frames (10_state.md R43), the only memory the block reaches (20_memory.md R70). -/
structure Memory where
  f0 : Frame
  f1 : Frame
  f2 : Frame
  f3 : Frame
  deriving DecidableEq, Repr

end Machine

end Sys2Proof
end

