-- ==== Sys2Proof/Syntax.lean ====
section
/-! DEFINITION. The block's micro-operations and its one port operation: the twelve rows of spec/opcode_table.json
(30_encoding.md R111), one constructor a row. -/

namespace Sys2Proof

/-- The eleven PH codes of 30_encoding.md R100 and the port operation BWR of R108. A micro-operation takes no
explicit operand (R103); BWR takes a 2-bit value (43_bank_select.md R202). -/
inductive Instr where
  /-- R161: the top of the frame, which reads the Bank Index. -/
  | bsample
  /-- R162: decode one column and drive the two data lines. -/
  | data
  /-- R163: the rising half of the shift-clock pulse. -/
  | clkh
  /-- R164: the falling half of the shift-clock pulse, and the column advance. -/
  | clkl
  /-- R165: assert output-enable, which blanks the panel. -/
  | blank
  /-- R166: pull the latch line low. -/
  | latl
  /-- R167: the timed latch delay. -/
  | lwait
  /-- R168: release the latch line high. -/
  | lath
  /-- R169: set the row-address lines. -/
  | addr
  /-- R170: de-assert output-enable, and the row advance. -/
  | unblank
  /-- R223: the fault state, which has no step. -/
  | fhold
  /-- R202: BankWrite(d), made by the bank writer. -/
  | bwr (d : Bank)
  deriving DecidableEq, Repr

end Sys2Proof
end

