-- ==== Sys2Proof/WellFormed.lean ====
section
/-! DEFINITION. Well-formedness: of an instruction, and of the Frame Store's canonical form. -/

namespace Sys2Proof

/-- Every term of Instr is a well-formed instruction: a micro-operation has no operand (30_encoding.md R103) and BWR
takes every 2-bit value (43_bank_select.md R202, "Every 2-bit d is legal"), which its type says. Log entry 23. -/
def Instr.wellFormed : Instr → Bool
  | .bsample => true
  | .data => true
  | .clkh => true
  | .clkl => true
  | .blank => true
  | .latl => true
  | .lwait => true
  | .lath => true
  | .addr => true
  | .unblank => true
  | .fhold => true
  | .bwr _ => true

namespace Machine

/-- The cells' canonical form below a length: addresses at least `lo` and strictly rising, each below `len`, and no
cell that holds what an unlisted address reads as. -/
def cellsWf (lo len : Nat) : List Host.Cell → Bool
  | [] => true
  | (a, v) :: rest => decide (lo ≤ a) && decide (a < len) && decide (v ≠ unlistedByte) && cellsWf (a + 1) len rest

/-- A Frame is in canonical form: equal contents are equal data. -/
def Frame.wf (f : Frame) : Bool := cellsWf 0 f.len f.cells

/-- The Frame Store is in canonical form. -/
def Memory.wf (m : Memory) : Bool := m.f0.wf && m.f1.wf && m.f2.wf && m.f3.wf

end Machine

end Sys2Proof
end

