-- ==== Sys2Proof/Decode.lean ====
section
/-! DEFINITION. The encodings of 30_encoding.md: the PH codes (R100), the two formats, the decoder, total on any word
and any byte, and the encoder; and the opcode table as data (R111). -/

namespace Sys2Proof

/-! ### The PH codes of R100 -/

@[simp] abbrev Ph.bsample : PhaseCode := 0x0#4
@[simp] abbrev Ph.data    : PhaseCode := 0x1#4
@[simp] abbrev Ph.clkh    : PhaseCode := 0x2#4
@[simp] abbrev Ph.clkl    : PhaseCode := 0x3#4
@[simp] abbrev Ph.blank   : PhaseCode := 0x4#4
@[simp] abbrev Ph.latl    : PhaseCode := 0x5#4
@[simp] abbrev Ph.lwait   : PhaseCode := 0x6#4
@[simp] abbrev Ph.lath    : PhaseCode := 0x7#4
@[simp] abbrev Ph.addr    : PhaseCode := 0x8#4
@[simp] abbrev Ph.unblank : PhaseCode := 0x9#4
@[simp] abbrev Ph.fhold   : PhaseCode := 0xF#4

/-- The two formats an operation is encoded in: the phase register (R100) and the bank write port (R108). They are
two places of the block, not two ranges of one code space: the same four bits select LATL in PH and BWR 1 at the port. -/
inductive Format where
  | ph4
  | bport3
  deriving DecidableEq, Repr

/-- An encoded operation: its format and its bits. -/
inductive EncWord where
  | ph4 (c : PhaseCode)
  | bport3 (w : PortWord)
  deriving DecidableEq, Repr

/-- Why a word selects no operation (R110), each by name. -/
inductive DecodeError where
  /-- A PH code 0xA to 0xE. The sequencer's step raises Fault(PHASE) on it (60_exceptions.md R221). -/
  | reservedPhase (c : PhaseCode)
  /-- A BPORT3 word with `we = 0`: a no-operation, not an illegal word (R108, R110). -/
  | noWrite (w : PortWord)
  /-- A byte with a 1 above the format's bits: no word of the format. -/
  | strayBits (f : Format) (b : Byte)
  deriving DecidableEq, Repr

/-- The BPORT3 word with the given `we` and `wd` (R108): `{we, wd[1:0]}`. -/
def portWord (we : Bool) (wd : Bank) : PortWord := BitVec.ofBool we ++ wd

/-- `we` of a BPORT3 word, its bit 2 (R111). -/
def portWe (w : PortWord) : Bool := w.getLsbD 2

/-- `wd` of a BPORT3 word, its bits 1 and 0 (R108). -/
def portWd (w : PortWord) : Bank := w.extractLsb' 0 2

/-- The operation a PH code selects (R100). -/
def decodePhase (c : PhaseCode) : Except DecodeError Instr :=
  match c.toNat with
  | 0x0 => .ok .bsample
  | 0x1 => .ok .data
  | 0x2 => .ok .clkh
  | 0x3 => .ok .clkl
  | 0x4 => .ok .blank
  | 0x5 => .ok .latl
  | 0x6 => .ok .lwait
  | 0x7 => .ok .lath
  | 0x8 => .ok .addr
  | 0x9 => .ok .unblank
  | 0xF => .ok .fhold
  | _   => .error (.reservedPhase c)

/-- The operation a BPORT3 word selects (R108, R111). -/
def decodePort (w : PortWord) : Except DecodeError Instr :=
  if portWe w then .ok (.bwr (portWd w)) else .error (.noWrite w)

/-- The decoder: total on every word of both formats. -/
def decode : EncWord → Except DecodeError Instr
  | .ph4 c => decodePhase c
  | .bport3 w => decodePort w

/-- A byte read as a word of a format: its low bits are the word's, and the bits above are 0. DESIGN CHOICE (log
entry 14): the block fetches no bytes (20_memory.md R87), so this layout is the model's own. -/
def decodeByte (f : Format) (b : Byte) : Except DecodeError Instr :=
  match f with
  | .ph4 => if b.toNat < 16 then decodePhase (b.setWidth 4) else .error (.strayBits .ph4 b)
  | .bport3 => if b.toNat < 8 then decodePort (b.setWidth 3) else .error (.strayBits .bport3 b)

/-! ### The encoder, from the same tables -/

/-- The word of an operation (R100, R108). -/
def encode : Instr → EncWord
  | .bsample => .ph4 Ph.bsample
  | .data => .ph4 Ph.data
  | .clkh => .ph4 Ph.clkh
  | .clkl => .ph4 Ph.clkl
  | .blank => .ph4 Ph.blank
  | .latl => .ph4 Ph.latl
  | .lwait => .ph4 Ph.lwait
  | .lath => .ph4 Ph.lath
  | .addr => .ph4 Ph.addr
  | .unblank => .ph4 Ph.unblank
  | .fhold => .ph4 Ph.fhold
  | .bwr d => .bport3 (portWord true d)

/-- The mnemonic of an operation as spec/opcode_table.json spells it. -/
def Instr.mnemonic : Instr → String
  | .bsample => "BSAMPLE"
  | .data => "DATA"
  | .clkh => "CLKH"
  | .clkl => "CLKL"
  | .blank => "BLANK"
  | .latl => "LATL"
  | .lwait => "LWAIT"
  | .lath => "LATH"
  | .addr => "ADDR"
  | .unblank => "UNBLANK"
  | .fhold => "FHOLD"
  | .bwr _ => "BWR"

/-! ### The opcode table as data -/

/-- One row of the opcode map (R111). -/
structure OpRow where
  mnemonic : String
  format   : Format
  pattern  : Nat
  mask     : Nat
  deriving DecidableEq, Repr

/-- The opcode map of R111: eleven PH codes and BWR, in the order of spec/opcode_table.json. -/
def opcodeTable : List OpRow :=
  [ ⟨"BSAMPLE", .ph4, 0x0, 0xF⟩, ⟨"DATA", .ph4, 0x1, 0xF⟩, ⟨"CLKH", .ph4, 0x2, 0xF⟩, ⟨"CLKL", .ph4, 0x3, 0xF⟩,
    ⟨"BLANK", .ph4, 0x4, 0xF⟩, ⟨"LATL", .ph4, 0x5, 0xF⟩, ⟨"LWAIT", .ph4, 0x6, 0xF⟩, ⟨"LATH", .ph4, 0x7, 0xF⟩,
    ⟨"ADDR", .ph4, 0x8, 0xF⟩, ⟨"UNBLANK", .ph4, 0x9, 0xF⟩, ⟨"FHOLD", .ph4, 0xF, 0xF⟩, ⟨"BWR", .bport3, 0x4, 0x4⟩ ]

/-- The format and the bits of an encoded operation. -/
def EncWord.format : EncWord → Format
  | .ph4 _ => .ph4
  | .bport3 _ => .bport3

/-- The bits of an encoded operation as a number, bit 0 least significant. -/
def EncWord.bits : EncWord → Nat
  | .ph4 c => c.toNat
  | .bport3 w => w.toNat

/-- A row selects a word: its format, and `word & mask = match` (R111). -/
def OpRow.selects (r : OpRow) (w : EncWord) : Bool :=
  decide (r.format = w.format) && decide (w.bits &&& r.mask = r.pattern)

/-! ### The host's table words -/

/-- The format a table word of `nbits` bits is read in. DESIGN CHOICE (log entry 13): the table has two formats, PH4
of four bits and BPORT3 of three, whose bit patterns coincide; a width of at most three bits is a port word and any
wider one a PH code, so in a whole byte 0x4 is BLANK. -/
def tableFormat (nbits : Nat) : Format := if nbits ≤ 3 then .bport3 else .ph4

/-- The instruction the decoder reads from a table word (log entries 13 and 14). -/
def decodeTableWord (nbits w : Nat) : Option Instr :=
  if w < 256 then
    match decodeByte (tableFormat nbits) (BitVec.ofNat 8 w) with
    | .ok i => some i
    | .error _ => none
  else none

end Sys2Proof
end

