-- ==== Sys2Proof/Machine/State.lean ====
section
/-! DEFINITION. The state of the block (10_state.md R30), with the arguments of the model (the Frame Store and the
OPEN parameters), the event history (R48) and the model's own schedule of moves; the reasons a step can stop; and the
state after reset (70_reset_and_hazards.md R260). -/

namespace Sys2Proof.Machine

/-- The fourteen output lines (30_encoding.md R104); `Line.bit` (Machine/Ops.lean) gives each its bit of OUT. -/
inductive Line where
  | rUp | gUp | bUp | rLo | gLo | bLo | a | b | c | d | clk | lat | oe | aux
  deriving DecidableEq, Repr

/-- The two pixel planes (00_scope.md R9). -/
inductive Plane where
  | up
  | lo
  deriving DecidableEq, Repr

/-- The fault codes of 60_exceptions.md R220; `FaultCode.bits` (Machine/Flags.lean) gives each its FCODE. -/
inductive FaultCode where
  | bankRange
  | frameOob
  | phase
  deriving DecidableEq, Repr

/-- What a fault records (60_exceptions.md R221). -/
inductive FaultInfo where
  /-- BANK_RANGE: the sampled value. -/
  | sampled (v : Nat)
  /-- FRAME_OOB: the plane, the bank FB and the address that was not admitted. -/
  | read (plane : Plane) (bank : Bank) (addr : Int)
  /-- PHASE: PH. -/
  | phase (ph : PhaseCode)
  deriving DecidableEq, Repr

/-- The events of a run (00_scope.md R24, 10_state.md R48). -/
inductive Event where
  | lineWrite (line : Line) (level : Level)
  | frameRead (bank : Bank) (addr : Nat) (byte : Byte)
  | bankRead (value : Nat)
  | bankWrite (value : Bank)
  /-- FaultEvent(code, PH_before, ROW, COL, info) (60_exceptions.md R222). -/
  | fault (code : FaultCode) (phBefore : PhaseCode) (row : RowIdx) (col : ColIdx) (info : FaultInfo)
  deriving DecidableEq, Repr

/-- One move of the block's environment and agents (00_scope.md R23; log entries 1 and 8). -/
inductive Turn where
  /-- The sequencer makes its micro-operation. -/
  | sequencer
  /-- The word on the bank write port (30_encoding.md R108). -/
  | bankPort (w : PortWord)
  /-- The bank writer's PRESS: BankWrite((BANK + 1) mod 4) (43_bank_select.md R203). -/
  | press
  /-- The reset input is asserted (70_reset_and_hazards.md R260). -/
  | reset
  deriving DecidableEq, Repr

/-- The state. The first eight fields are the tuple of 10_state.md R30. -/
structure State where
  /-- PH[3:0] (R32). -/
  ph    : PhaseCode
  /-- ROW[3:0] (R33). -/
  row   : RowIdx
  /-- COL[5:0] (R34). -/
  col   : ColIdx
  /-- FB, the sampled bank: `none` is the spec's own value "unwritten" (R36). -/
  fb    : Option Bank
  /-- FAULT (R37). -/
  fault : Bool
  /-- FCODE[1:0] (R37). -/
  fcode : BitVec 2
  /-- BANK[1:0], the Bank Selector (R38). -/
  bank  : Bank
  /-- OUT[13:0], the output lines (R40). -/
  out   : OutWord
  /-- The Frame Store (R43): an argument of the model, which no step writes. -/
  mem   : Memory
  /-- The OPEN parameters (00_scope.md R12, R15, R16, R204): arguments of the model, which no step writes. -/
  cfg   : Config
  /-- The event history (R48), one list a step, the newest step first; no rule reads it. -/
  hist  : List (List Event)
  /-- The model's own field: the moves to come, next first. An empty list gives the sequencer every move. -/
  sched : List Turn
  deriving DecidableEq, Repr

/-- Why the machine stops. -/
inductive Fault where
  /-- Raised by FHOLD: in a state with PH = 0xF the sequencer has no step (60_exceptions.md R223). A stuck state, named.
  Safe: the spec has the block stop there. -/
  | sequencerHalted
  /-- Raised by a scheduled bank-writer move that COOP_SCHED = true does not admit, PH not being LWAIT
  (43_bank_select.md R204). Safe: the schedule is no run of the block. -/
  | bankWriterNotEnabled
  /-- Raised by a scheduled bank-writer move that writes another value than (BANK + 1) mod 4, which the bank writer's
  contract rules out (43_bank_select.md R203; log entry 9). Safe: the schedule is no run of the block. -/
  | bankWriterContract
  deriving DecidableEq, Repr

/-- Why the model gives no meaning. -/
inductive Refusal where
  /-- An instruction whose meaning is not written. Raised by no arm of exec. Safe. -/
  | notModelled (mnemonic : String)
  /-- Raised by step in a configuration in which some Frame is shorter than HDR_OFF + 256 bytes: "The model gives it
  no meaning: it is refused before the first step" (60_exceptions.md R226). Safe. -/
  | undersizedFrame
  deriving DecidableEq, Repr

/-- The Frame of the reset state: L = HDR_OFF + 256 = 315 (95_test_vectors.md, Common configuration), no byte listed.
DESIGN CHOICE, log entry 3. -/
def Frame.blank : Frame := { len := MIN_FRAME_LEN, cells := [] }

/-- The Frame Store of the reset state. DESIGN CHOICE, log entry 3: its contents are OPEN (00_scope.md R14). -/
def Memory.blank : Memory := { f0 := Frame.blank, f1 := Frame.blank, f2 := Frame.blank, f3 := Frame.blank }

/-- The INIT_LEVELS of the reset state. DESIGN CHOICE, log entry 4: they are OPEN (00_scope.md R16). -/
def InitLevels.low : InitLevels :=
  { gUp := false, gLo := false, clk := false, lat := false, oe := false, a := false, b := false, c := false, d := false }

/-- The parameters of the reset state: TBO = 255 and COOP_SCHED = false, the common configuration of
95_test_vectors.md, and a latch delay of about one microsecond (00_scope.md R15). DESIGN CHOICE, log entry 3. -/
def Config.common : Config :=
  { tbo := 255, initLevels := InitLevels.low, coopSched := false, latchDelay := 1000 }

/-- The machine right after reset (70_reset_and_hazards.md R260), for the parameters above. The lines R_UP, B_UP, R_LO,
B_LO and AUX are 0 by rule R41, the nine others by log entry 4; every other reset state is `powerOn` of
Machine/Ops.lean. -/
def State.reset : State where
  ph    := 0x0#4
  row   := 0#4
  col   := 0#6
  fb    := none
  fault := false
  fcode := 0#2
  bank  := 0#2
  out   := 0#14
  mem   := Memory.blank
  cfg   := Config.common
  hist  := []
  sched := []

end Sys2Proof.Machine
end

