-- ==== Sys2Proof/Machine/Flags.lean ====
section
/-! DEFINITION. The fault status FAULT and FCODE, the block's only flags (10_state.md R37), and their codes
(60_exceptions.md R220). No micro-operation writes a flag but by fault entry (42_row_scan.md, first paragraph). -/

namespace Sys2Proof.Machine

/-- The FCODE of a fault (60_exceptions.md R220). -/
def FaultCode.bits : FaultCode → BitVec 2
  | .bankRange => 1#2
  | .frameOob => 2#2
  | .phase => 3#2

/-- The FCODE that means no fault (10_state.md R37). -/
def fcodeNone : BitVec 2 := 0#2

/-- FAULT and FCODE as fault entry leaves them (60_exceptions.md R222). -/
def State.setFault (code : FaultCode) (s : State) : State := { s with fault := true, fcode := code.bits }

/-- FAULT and FCODE as reset leaves them (70_reset_and_hazards.md R260), the only thing that clears them (R224). -/
def State.clearFault (s : State) : State := { s with fault := false, fcode := fcodeNone }

end Sys2Proof.Machine
end

