-- ==== Sys2Proof/Machine/Ops.lean ====
section
/-! DEFINITION. The named operations over the block's registers, lines and memory: the primitives of 00_scope.md R22,
the port words, fault entry (60_exceptions.md R222) and reset (70_reset_and_hazards.md R260). -/

namespace Sys2Proof.Machine

/-! ### The output lines -/

/-- The bit of OUT a line stands at (30_encoding.md R104). -/
def Line.bit : Line → Nat
  | .rUp => 0
  | .gUp => 1
  | .bUp => 2
  | .rLo => 3
  | .gLo => 4
  | .bLo => 5
  | .a => 6
  | .b => 7
  | .c => 8
  | .d => 9
  | .clk => 10
  | .lat => 11
  | .oe => 12
  | .aux => 13

/-- The fourteen lines in the order of their bits. -/
def Line.all : List Line := [.rUp, .gUp, .bUp, .rLo, .gLo, .bLo, .a, .b, .c, .d, .clk, .lat, .oe, .aux]

/-- The lines the sequencer writes; it never writes the five others (10_state.md R41, R42). -/
def Line.driven : Line → Bool
  | .rUp => false
  | .gUp => true
  | .bUp => false
  | .rLo => false
  | .gLo => true
  | .bLo => false
  | .a => true
  | .b => true
  | .c => true
  | .d => true
  | .clk => true
  | .lat => true
  | .oe => true
  | .aux => false

/-- The level of a line in an output word. -/
def lineOf (out : OutWord) (l : Line) : Level := out.getLsbD l.bit

/-- An output word with one line at a level and every other line as it was. -/
def setLine (out : OutWord) (l : Line) (v : Level) : OutWord :=
  (out &&& ~~~(1#14 <<< l.bit)) ||| ((BitVec.ofBool v).setWidth 14 <<< l.bit)

/-- The level of a line in a state. -/
def State.line (s : State) (l : Line) : Level := lineOf s.out l

/-- The row address on the lines, `{D, C, B, A}` (30_encoding.md R106). -/
def addrOf (out : OutWord) : RowIdx := out.extractLsb' 6 4

/-- Several LineWrites on an output word. -/
def setLines (out : OutWord) (ws : List (Line × Level)) : OutWord := ws.foldl (fun o w => setLine o w.1 w.2) out

/-! ### The event history -/

/-- Append a step's events to the history (10_state.md R48). -/
def State.record (es : List Event) (s : State) : State := { s with hist := es :: s.hist }

/-- The history in step order. -/
def State.trace (s : State) : List (List Event) := s.hist.reverse

/-- The LineWrite events of a list of line writes. -/
def writeEvents (ws : List (Line × Level)) : List Event := ws.map fun w => .lineWrite w.1 w.2

/-- A step that completes: after its register writes it drives the lines `ws` and records its reads and its
LineWrites. Every LineWrite is recorded, even of the level the line holds (20_memory.md R76). The LineWrites of one
step stand in the order of their bits of OUT, which stands for no order of the writes: that order is not observable
(20_memory.md R83; log entry 7). -/
def State.complete (reads : List Event) (ws : List (Line × Level)) (s : State) : State :=
  ({ s with out := setLines s.out ws }).record (reads ++ writeEvents ws)

/-! ### The Frame Store -/

/-- The Frame of a bank. -/
def Memory.frame (m : Memory) (b : Bank) : Frame :=
  match b.toNat with
  | 0 => m.f0
  | 1 => m.f1
  | 2 => m.f2
  | _ => m.f3

/-- The byte a list of cells gives an address. -/
def cellsRead : List Host.Cell → Nat → Byte
  | [], _ => unlistedByte
  | (k, v) :: rest, a => if k = a then v else cellsRead rest a

/-- The cells with one byte placed, in canonical form: placing what an unlisted address reads as removes the entry. -/
def cellsPut : List Host.Cell → Nat → Byte → List Host.Cell
  | [], a, v => if v = unlistedByte then [] else [(a, v)]
  | (k, w) :: rest, a, v =>
    if a < k then (if v = unlistedByte then (k, w) :: rest else (a, v) :: (k, w) :: rest)
    else if a = k then (if v = unlistedByte then rest else (a, v) :: rest)
    else (k, w) :: cellsPut rest a v

/-- The byte at an address of a Frame. -/
def Frame.byte (f : Frame) (a : Nat) : Byte := cellsRead f.cells a

/-- A Frame with one byte placed at build time (70_reset_and_hazards.md R262 (2)): a move of the platform, which no
step makes (10_state.md R43). Outside the blob there is no byte to place. -/
def Frame.put (f : Frame) (a : Nat) (v : Byte) : Frame :=
  if a < f.len then { f with cells := cellsPut f.cells a v } else f

/-- The Frame Store with one byte placed at build time. -/
def Memory.put (m : Memory) (b : Bank) (a : Nat) (v : Byte) : Memory :=
  match b.toNat with
  | 0 => { m with f0 := m.f0.put a v }
  | 1 => { m with f1 := m.f1.put a v }
  | 2 => { m with f2 := m.f2.put a v }
  | _ => { m with f3 := m.f3.put a v }

/-- The Frame Store read port (30_encoding.md R109): combinational, `fs_data` for `fs_bank` and `fs_addr`. -/
def readPort (m : Memory) (fsBank : Bank) (fsAddr : Nat) : Byte := (m.frame fsBank).byte fsAddr

/-- Admit(b, a) (20_memory.md R73). -/
abbrev Admit (m : Memory) (b : Bank) (a : Int) : Prop :=
  b.toNat ≤ NBANKS - 1 ∧ (HDR_OFF : Int) ≤ a ∧ a ≤ ((m.frame b).len : Int) - 1

/-- FrameRead(b, a) (20_memory.md R72): the byte, or nothing where the read is not admitted. Its event is
`Event.frameRead` of the same bank, address and byte. -/
def frameRead (m : Memory) (b : Bank) (a : Int) : Option Byte :=
  if Admit m b a then some (readPort m b a.toNat) else none

/-- Every Frame meets the length invariant of 00_scope.md R13; a configuration that does not is refused
(60_exceptions.md R226). -/
abbrev framesAdmitted (m : Memory) : Prop :=
  MIN_FRAME_LEN ≤ m.f0.len ∧ MIN_FRAME_LEN ≤ m.f1.len ∧ MIN_FRAME_LEN ≤ m.f2.len ∧ MIN_FRAME_LEN ≤ m.f3.len

/-! ### The Bank Selector -/

/-- BankRead() (43_bank_select.md R201): BANK as a number; its event is `Event.bankRead` of the same value. -/
def bankRead (s : State) : Nat := s.bank.toNat

/-- BankWrite(d) (43_bank_select.md R202). -/
def bankWrite (d : Bank) (s : State) : State := ({ s with bank := d }).record [.bankWrite d]

/-- The word of PRESS: BankWrite((BANK + 1) mod 4) on the port (43_bank_select.md R203). -/
def pressWord (s : State) : PortWord := portWord true (s.bank + 1#2)

/-! ### Fault entry and reset -/

/-- `raise Fault(code)` (60_exceptions.md R222): FAULT, FCODE and PH are written, and nothing else but the record. The
reads the step made before the fault stand in the record before the FaultEvent (log entry 19). -/
def raiseFault (code : FaultCode) (info : FaultInfo) (reads : List Event) (s : State) : State :=
  ({ s.setFault code with ph := Ph.fhold }).record (reads ++ [Event.fault code s.ph s.row s.col info])

/-- OUT as reset leaves it (70_reset_and_hazards.md R260): INIT_LEVELS on the nine driven lines, 0 on the five others. -/
def resetOut (i : InitLevels) : OutWord :=
  setLines 0#14 [(.gUp, i.gUp), (.gLo, i.gLo), (.clk, i.clk), (.lat, i.lat), (.oe, i.oe), (.a, i.a), (.b, i.b),
    (.c, i.c), (.d, i.d)]

/-- The reset input (70_reset_and_hazards.md R260). There is no other return from a fault (60_exceptions.md R224).
Reset makes no event and leaves the record of the run so far (log entry 6). -/
def assertReset (s : State) : State :=
  { s.clearFault with
    ph := Ph.bsample
    row := 0#4
    col := 0#6
    fb := none
    bank := 0#2
    out := resetOut s.cfg.initLevels }

/-- The reset state for given parameters, Frame Store and schedule (00_scope.md R24, "from a reset state";
70_reset_and_hazards.md R260 and R262). -/
def powerOn (cfg : Config) (mem : Memory) (sched : List Turn) : State :=
  { State.reset with out := resetOut cfg.initLevels, cfg := cfg, mem := mem, sched := sched }

/-! ### The sequencer position and the observation -/

/-- The SEQ14 word of a state (30_encoding.md R102). -/
def State.seq14 (s : State) : Seq14 := s.ph ++ s.row ++ s.col

/-- A state at the position a SEQ14 word names. -/
def State.withSeq14 (s : State) (w : Seq14) : State :=
  { s with ph := w.extractLsb' 10 4, row := w.extractLsb' 6 4, col := w.extractLsb' 0 6 }

/-- What the model exposes to the observer (60_exceptions.md R233), and nothing else. -/
structure Observation where
  ph    : PhaseCode
  row   : RowIdx
  col   : ColIdx
  fb    : Option Bank
  fault : Bool
  fcode : BitVec 2
  bank  : Bank
  out   : OutWord
  trace : List (List Event)
  deriving DecidableEq, Repr

/-- The observation of a state (60_exceptions.md R233). -/
def State.observe (s : State) : Observation :=
  { ph := s.ph, row := s.row, col := s.col, fb := s.fb, fault := s.fault, fcode := s.fcode, bank := s.bank,
    out := s.out, trace := s.trace }

end Sys2Proof.Machine
end

