-- ==== Sys2Proof/Machine/BankPort.lean ====
section
/-! DEFINITION. The write operation of the Bank Selector (43_bank_select.md R202). -/

namespace Sys2Proof.Machine

/-- BWR d (43_bank_select.md R202): every 2-bit d is legal, no line is written and FB is unchanged. -/
def execBwr (d : Bank) (s : State) : Host.Outcome State Fault Refusal := .next (bankWrite d s)

end Sys2Proof.Machine
end

