-- ==== Sys2Proof/Machine/FaultHold.lean ====
section
/-! DEFINITION. FHOLD, the fault state (60_exceptions.md R223). -/

namespace Sys2Proof.Machine

/-- FHOLD (60_exceptions.md R223): "in a state with PH = 0xF the sequencer has no enabled step". It is not a self-loop
(90_conflicts.md C11), so the sequencer's move ends here, by name. Log entry 11. -/
def execFhold (_ : State) : Host.Outcome State Fault Refusal := .fault .sequencerHalted

end Sys2Proof.Machine
end

