-- ==== Sys2Proof/Machine/Operands.lean ====
section
/-! DEFINITION. The implicit operand of DATA: the bit-plane framebuffer decoder of 41_decode.md. Every quantity is a
mathematical integer, with no wrap-around (00_scope.md R21). -/

namespace Sys2Proof.Machine

/-- BitPosUp(r, c) = 64*r + c (41_decode.md R130). -/
def bitPosUp (r c : Nat) : Nat := 64 * r + c

/-- BitPosLo(r, c) = 128*r + c (41_decode.md R131; 90_conflicts.md C2). -/
def bitPosLo (r c : Nat) : Nat := 128 * r + c

/-- The bit position of a plane's pixel. -/
def bitPos : Plane → Nat → Nat → Nat
  | .up => bitPosUp
  | .lo => bitPosLo

/-- ByteOff(p) (41_decode.md R132). -/
def byteOff (p : Nat) : Nat := p / 8

/-- BitOff(p) (41_decode.md R132). -/
def bitOff (p : Nat) : Nat := p % 8

/-- ByteIdx(p) = TBO - ByteOff(p), counted backward and possibly negative (41_decode.md R133). -/
def byteIdx (tbo : Int) (p : Nat) : Int := tbo - byteOff p

/-- Addr(p) = HDR_OFF + ByteIdx(p) (41_decode.md R134). -/
def pixelAddr (tbo : Int) (p : Nat) : Int := HDR_OFF + byteIdx tbo p

/-- `(byte >> offset) & 1` (41_decode.md R135; 90_conflicts.md C3). -/
def testBit (byte : Byte) (offset : Nat) : Level := (byte >>> offset).getLsbD 0

/-- One admitted pixel read: what FrameRead returned and recorded, and the bit it gives. -/
structure PixelRead where
  bank : Bank
  addr : Nat
  byte : Byte
  bit  : Level
  deriving DecidableEq, Repr

/-- The FrameRead event of a pixel read. -/
def PixelRead.event (r : PixelRead) : Event := .frameRead r.bank r.addr r.byte

/-- PixelBit(b, p) (41_decode.md R135), with the read it makes; nothing where the read is not admitted. -/
def pixelRead (tbo : Int) (m : Memory) (b : Bank) (p : Nat) : Option PixelRead :=
  match frameRead m b (pixelAddr tbo p) with
  | some byte => some ⟨b, (pixelAddr tbo p).toNat, byte, testBit byte (bitOff p)⟩
  | none => none

/-- The value of PixelBit(b, p) alone (41_decode.md R135). -/
def pixelBit (tbo : Int) (m : Memory) (b : Bank) (p : Nat) : Option Level := (pixelRead tbo m b p).map PixelRead.bit

/-- What Decode answers: the pair of reads, or the read that was not admitted with the reads made before it. -/
inductive DecodeResult where
  | pair (u l : PixelRead)
  | oob (made : List PixelRead) (plane : Plane) (addr : Int)
  deriving DecidableEq, Repr

/-- Decode(b, r, c) (41_decode.md R136): the upper read first; if it faults, the lower read is not made. -/
def decodePixels (tbo : Int) (m : Memory) (b : Bank) (r c : Nat) : DecodeResult :=
  match pixelRead tbo m b (bitPosUp r c) with
  | none => .oob [] .up (pixelAddr tbo (bitPosUp r c))
  | some u =>
    match pixelRead tbo m b (bitPosLo r c) with
    | none => .oob [u] .lo (pixelAddr tbo (bitPosLo r c))
    | some l => .pair u l

/-- The bound of 41_decode.md R141 under which every read of a frame drawn from bank b is admitted. -/
abbrev TboInBound (tbo : Int) (m : Memory) (b : Bank) : Prop :=
  247 ≤ tbo ∧ tbo ≤ ((m.frame b).len : Int) - 1 - HDR_OFF

/-- Bit q of the asset's pixel-data region read forward, most significant bit first in each byte (41_decode.md R143). -/
def streamBit (m : Memory) (b : Bank) (q : Nat) : Level := (readPort m b (HDR_OFF + q / 8)).getLsbD (7 - q % 8)

end Sys2Proof.Machine
end

