-- ==== Sys2Proof/Machine/RowScan.lean ====
section
/-! DEFINITION. The micro-operations of the row-scan sequencer (42_row_scan.md R161 to R170), one definition each, and
the dispatch's reserved codes (60_exceptions.md R221). -/

namespace Sys2Proof.Machine

/-- BSAMPLE for a sampled value of any width (42_row_scan.md R161): a value of NBANKS or more raises
Fault(BANK_RANGE), and is neither clamped nor wrapped (43_bank_select.md R205). The 2-bit BANK never gives one. -/
def sampleBank (v : Nat) (s : State) : State :=
  if NBANKS ≤ v then raiseFault .bankRange (.sampled v) [.bankRead v] s
  else
    ({ s with fb := some (BitVec.ofNat 2 v), row := 0#4, col := 0#6, ph := Ph.data }).complete [.bankRead v] []

/-- BSAMPLE (42_row_scan.md R161). -/
def execBsample (s : State) : Host.Outcome State Fault Refusal := .next (sampleBank (bankRead s) s)

/-- DATA (42_row_scan.md R162): FB unwritten raises Fault(PHASE) before any read, and a read that is not admitted
Fault(FRAME_OOB); on either fault no line is written (60_exceptions.md R227). -/
def execData (s : State) : Host.Outcome State Fault Refusal :=
  match s.fb with
  | none => .next (raiseFault .phase (.phase s.ph) [] s)
  | some b =>
    match decodePixels s.cfg.tbo s.mem b s.row.toNat s.col.toNat with
    | .oob made plane a => .next (raiseFault .frameOob (.read plane b a) (made.map PixelRead.event) s)
    | .pair u l => .next (({ s with ph := Ph.clkh }).complete [u.event, l.event] [(.gUp, u.bit), (.gLo, l.bit)])

/-- CLKH (42_row_scan.md R163). -/
def execClkh (s : State) : Host.Outcome State Fault Refusal :=
  .next (({ s with ph := Ph.clkl }).complete [] [(.clk, true)])

/-- CLKL (42_row_scan.md R164): COL wraps from 63 to 0, and then the row's shift phase ends. -/
def execClkl (s : State) : Host.Outcome State Fault Refusal :=
  .next (({ s with col := s.col + 1#6, ph := if s.col = 63#6 then Ph.blank else Ph.data }).complete [] [(.clk, false)])

/-- BLANK (42_row_scan.md R165). -/
def execBlank (s : State) : Host.Outcome State Fault Refusal :=
  .next (({ s with ph := Ph.latl }).complete [] [(.oe, true)])

/-- LATL (42_row_scan.md R166). -/
def execLatl (s : State) : Host.Outcome State Fault Refusal :=
  .next (({ s with ph := Ph.lwait }).complete [] [(.lat, false)])

/-- LWAIT (42_row_scan.md R167): the untimed model takes the completion of the wait as one step that is always enabled
(70_reset_and_hazards.md R274); its duration is Machine/Timing.lean's. -/
def execLwait (s : State) : Host.Outcome State Fault Refusal :=
  .next (({ s with ph := Ph.lath }).complete [] [])

/-- LATH (42_row_scan.md R168). -/
def execLath (s : State) : Host.Outcome State Fault Refusal :=
  .next (({ s with ph := Ph.addr }).complete [] [(.lat, true)])

/-- The four LineWrites of a row address (30_encoding.md R106). -/
def addrWrites (r : RowIdx) : List (Line × Level) :=
  [(.a, r.getLsbD 0), (.b, r.getLsbD 1), (.c, r.getLsbD 2), (.d, r.getLsbD 3)]

/-- ADDR (42_row_scan.md R169): ROW is the row just shifted and latched. -/
def execAddr (s : State) : Host.Outcome State Fault Refusal :=
  .next (({ s with ph := Ph.unblank }).complete [] (addrWrites s.row))

/-- UNBLANK (42_row_scan.md R170): ROW wraps from 15 to 0, and then the frame ends. -/
def execUnblank (s : State) : Host.Outcome State Fault Refusal :=
  .next (({ s with row := s.row + 1#4, ph := if s.row = 15#4 then Ph.bsample else Ph.data }).complete [] [(.oe, false)])

/-- The step of a reserved PH code (42_row_scan.md R160; 60_exceptions.md R221): it raises Fault(PHASE). -/
def reservedPhase (s : State) : Host.Outcome State Fault Refusal :=
  .next (raiseFault .phase (.phase s.ph) [] s)

end Sys2Proof.Machine
end

