-- ==== Sys2Proof/Machine/Dispatch.lean ====
section
/-! DEFINITION. The dispatch of 42_row_scan.md R160 and of the bank write port: one arm an operation. -/

namespace Sys2Proof.Machine

def exec (i : Instr) (s : State) : Host.Outcome State Fault Refusal :=
  match i with
  | .bsample => Sys2Proof.Machine.execBsample s
  | .data => Sys2Proof.Machine.execData s
  | .clkh => Sys2Proof.Machine.execClkh s
  | .clkl => Sys2Proof.Machine.execClkl s
  | .blank => Sys2Proof.Machine.execBlank s
  | .latl => Sys2Proof.Machine.execLatl s
  | .lwait => Sys2Proof.Machine.execLwait s
  | .lath => Sys2Proof.Machine.execLath s
  | .addr => Sys2Proof.Machine.execAddr s
  | .unblank => Sys2Proof.Machine.execUnblank s
  | .fhold => Sys2Proof.Machine.execFhold s
  | .bwr d => Sys2Proof.Machine.execBwr d s

end Sys2Proof.Machine
end

