-- ==== Sys2Proof/Machine/Schedule.lean ====
section
/-! DEFINITION. The moves of the two agents and of the environment (00_scope.md R23, 43_bank_select.md R203 and R204,
60_exceptions.md R232), and where a table word is placed so that the next step runs it. -/

namespace Sys2Proof.Machine

/-- SeqStep() (42_row_scan.md R160): the operation PH selects, or the fault of a reserved code. -/
def sequencerTurn (s : State) : Host.Outcome State Fault Refusal :=
  match decode (.ph4 s.ph) with
  | .ok i => exec i s
  | .error _ => reservedPhase s

/-- Where the bank writer may step (43_bank_select.md R204): anywhere, or with COOP_SCHED = true in LWAIT only. -/
abbrev bankWriterEnabled (s : State) : Prop := s.cfg.coopSched = true → s.ph = Ph.lwait

/-- The bank writer's contract: it writes no value but (BANK + 1) mod 4 (43_bank_select.md R203, 92_eei_decisions.md
D12). -/
abbrev keepsContract (w : PortWord) (s : State) : Prop := portWd w = s.bank + 1#2

/-- The word on the bank write port: with `we = 1` the bank writer's step, where it may step and keeps its contract,
and with `we = 0` nothing at all (30_encoding.md R108, 43_bank_select.md R203 and R204; log entries 9, 10 and 20). -/
def bankPortTurn (w : PortWord) (s : State) : Host.Outcome State Fault Refusal :=
  match decode (.bport3 w) with
  | .ok i =>
    if bankWriterEnabled s then
      if keepsContract w s then exec i s else .fault .bankWriterContract
    else .fault .bankWriterNotEnabled
  | .error _ => .next s

/-- One move. -/
def takeTurn (t : Turn) (s : State) : Host.Outcome State Fault Refusal :=
  match t with
  | .sequencer => sequencerTurn s
  | .bankPort w => bankPortTurn w s
  | .press => bankPortTurn (pressWord s) s
  | .reset => .next (assertReset s)

/-- The move the schedule gives next: the sequencer's where it lists none. -/
def State.nextTurn (s : State) : Turn := s.sched.headD .sequencer

/-- The state with its next move taken off the schedule. -/
def State.popTurn (s : State) : State := { s with sched := s.sched.tail }

/-- One step: the configuration refusal of 60_exceptions.md R226, else the next move. -/
def stepMove (s : State) : Host.Outcome State Fault Refusal :=
  if framesAdmitted s.mem then takeTurn s.nextTurn s.popTurn else .refused .undersizedFrame

/-- A table word placed where the next step takes it (log entry 15). A PH code goes into PH and the sequencer moves
next; a port word goes on the port and the bank writer moves next: in LWAIT where COOP_SCHED lets it move only there,
and from the BANK that makes its value the one its contract lets it write. -/
def placeWord (s : State) (nbits w : Nat) : State :=
  match tableFormat nbits with
  | .ph4 => { s with ph := BitVec.ofNat 4 w, sched := .sequencer :: s.sched }
  | .bport3 =>
    { s with
      ph := if s.cfg.coopSched then Ph.lwait else s.ph
      bank := if portWe (BitVec.ofNat 3 w) then portWd (BitVec.ofNat 3 w) - 1#2 else s.bank
      sched := .bankPort (BitVec.ofNat 3 w) :: s.sched }

end Sys2Proof.Machine
end

