-- ==== Sys2Proof/Machine/Step.lean ====
section
/-! DEFINITION. The step of the machine, and the host's way to place an instruction. -/

namespace Sys2Proof.Machine

/-- One step of the block: one move of one agent (00_scope.md R23). -/
def step (s : State) : Host.Outcome State Fault Refusal := stepMove s

/-- `s` with a table word placed so that the very next step runs it (log entry 15). -/
def State.withFetchWord (s : State) (nbits w : Nat) : State := placeWord s nbits w

end Sys2Proof.Machine
end

