-- ==== Sys2Proof/Machine/Panel.lean ====
section
/-! DEFINITION. The non-normative observer of the panel (10_state.md §6, R50 to R54). The block's rules never read it;
it turns the levels of the output lines into a displayed image. Log entry 17. -/

namespace Sys2Proof.Machine

/-- An (upper, lower) pair of one column. -/
structure PixelPair where
  up : Level
  lo : Level
  deriving DecidableEq, Repr

/-- Sixty-four pairs, position 0 first. -/
abbrev PairReg := Vector PixelPair 64

/-- The observer's state (R50): SR, OLAT, and the levels of CLK and LAT it saw last. Its contents before the first step
are unknown, so a statement takes any. -/
structure Panel where
  sr      : PairReg
  olat    : PairReg
  prevClk : Level
  prevLat : Level
  deriving DecidableEq, Repr

/-- One shift: every pair moves up one place and the new pair enters at position 0 (R51). -/
def shiftIn (p : PixelPair) (sr : PairReg) : PairReg :=
  Vector.ofFn fun j : Fin 64 => if j.val = 0 then p else sr[j.val - 1]'(by omega)

/-- The CLK transition that PANEL_CLK_EDGE selects (R51). -/
def clkEdgeSeen : ClkEdge → Level → Level → Bool
  | .rising, before, now => !before && now
  | .falling, before, now => before && !now

/-- The LAT transition or level that PANEL_LAT_MODE selects (R52). -/
def latchSeen : LatMode → Level → Level → Bool
  | .rise, before, now => !before && now
  | .fall, before, now => before && !now
  | .transparentHigh, _, now => now

/-- One observer step on the levels of the lines after a step of the block: the shift of R51, then the latch of R52. -/
def Panel.observe (prm : PanelConfig) (out : OutWord) (p : Panel) : Panel :=
  let sr :=
    if clkEdgeSeen prm.clkEdge p.prevClk (lineOf out .clk) then shiftIn ⟨lineOf out .gUp, lineOf out .gLo⟩ p.sr
    else p.sr
  { sr := sr
    olat := if latchSeen prm.latMode p.prevLat (lineOf out .lat) then sr else p.olat
    prevClk := lineOf out .clk
    prevLat := lineOf out .lat }

/-- The level of a plane's pixel in a pair. -/
def PixelPair.half (x : PixelPair) : Plane → Level
  | .up => x.up
  | .lo => x.lo

/-- Whether the green LED of a half, a row address and a physical column is lit (R53, R54): OE = 0, the row is the
addressed one, and some position shown at that column holds a 1. -/
def ledLit (prm : PanelConfig) (out : OutWord) (p : Panel) (half : Plane) (row : RowIdx) (column : Fin 64) : Bool :=
  !lineOf out .oe && decide (row = addrOf out) &&
    (List.finRange 64).any fun j => decide (prm.colMap[j] = column) && (p.olat[j]).half half

/-- The physical row of a half and a row address. The spec gives one row in each half, half the panel height apart
(00_scope.md R3 and its glossary), and no more: that address r is row r of its half, so that address 0 is the half's
first row, and that the upper half is numbered first, is the model's choice. DESIGN CHOICE, log entry 25. -/
def physicalRow : Plane → RowIdx → Nat
  | .up, r => r.toNat
  | .lo, r => ROWS + r.toNat

/-- The block with a panel on its lines. -/
structure System where
  block : State
  panel : Panel
  deriving DecidableEq, Repr

/-- One step of the block, observed. A step that is a reset of the block leaves SR and OLAT as it would any other step's:
the spec gives them any value there (the reset table of 70_reset_and_hazards.md §1, 10_state.md R50), and that they keep
their contents is the model's choice. DESIGN CHOICE, log entry 17. -/
def System.step (prm : PanelConfig) (x : System) : Host.Outcome System Fault Refusal :=
  match Sys2Proof.Machine.step x.block with
  | .next s => .next { block := s, panel := x.panel.observe prm s.out }
  | .fault r => .fault r
  | .refused r => .refused r

/-- `k` observed steps. -/
def System.run (prm : PanelConfig) : Nat → System → Host.Outcome System Fault Refusal
  | 0, x => .next x
  | k + 1, x =>
    match x.step prm with
    | .next y => System.run prm k y
    | .fault r => .fault r
    | .refused r => .refused r

end Sys2Proof.Machine
end

