-- ==== Sys2Proof/Machine/Timing.lean ====
section
/-! DEFINITION. The timed refinement of 70_reset_and_hazards.md R274: each step takes any non-negative duration, and
LWAIT completes no sooner than LATCH_DELAY after LATL (42_row_scan.md R167). No rule of the untimed model reads it.
Times are in nanoseconds (log entry 18). -/

namespace Sys2Proof.Machine

/-- A state with a clock of the observer's: the time now, and the time at which the last LATL completed. -/
structure Timed where
  base   : State
  now    : Nat
  latlAt : Option Nat
  deriving DecidableEq, Repr

/-- The next step is the sequencer's, of the given phase. -/
abbrev atPhase (ph : PhaseCode) (s : State) : Prop := s.nextTurn = .sequencer ∧ s.ph = ph

/-- The time `t` is long enough after the last LATL for LWAIT to complete (42_row_scan.md R167). -/
def latchDelayOver (x : Timed) (t : Nat) : Bool :=
  match x.latlAt with
  | none => true
  | some t0 => decide (t0 + x.base.cfg.latchDelay ≤ t)

/-- A step that takes `d`: nothing where the machine has no next state, or where LWAIT would complete too early. -/
def timedStep (d : Nat) (x : Timed) : Option Timed :=
  if atPhase Ph.lwait x.base ∧ latchDelayOver x (x.now + d) = false then none
  else
    match step x.base with
    | .next s =>
      some { base := s, now := x.now + d, latlAt := if atPhase Ph.latl x.base then some (x.now + d) else x.latlAt }
    | .fault _ => none
    | .refused _ => none

end Sys2Proof.Machine
end

