-- ==== Sys2Proof/Machine/Trace.lean ====
section
/-! DEFINITION. The trace syntax and the pseudo-operations (30_encoding.md R112 and R113). They add no behaviour. -/

namespace Sys2Proof.Machine

/-! ### Pseudo-operations (R113) -/

/-- PULSE: CLKH; CLKL. -/
def pulse : List Instr := [.clkh, .clkl]

/-- COLUMN: DATA; CLKH; CLKL. -/
def column : List Instr := .data :: pulse

/-- ROWEND: BLANK; LATL; LWAIT; LATH; ADDR; UNBLANK. -/
def rowEnd : List Instr := [.blank, .latl, .lwait, .lath, .addr, .unblank]

/-- SCANROW: 64 × COLUMN; ROWEND. -/
def scanRow : List Instr := (List.replicate COLS column).flatten ++ rowEnd

/-- FRAME: BSAMPLE; 16 × SCANROW. -/
def frameOps : List Instr := .bsample :: (List.replicate ROWS scanRow).flatten

/-- PRESS: BWR ((BANK + 1) mod 4), one step of the bank writer. -/
def pressOp (s : State) : Instr := .bwr (s.bank + 1#2)

/-- A sequence of operations, one after the other. -/
def execAll : List Instr → State → Host.Outcome State Fault Refusal
  | [], s => .next s
  | i :: is, s =>
    match exec i s with
    | .next t => execAll is t
    | .fault r => .fault r
    | .refused r => .refused r

/-! ### Trace syntax (R112) -/

/-- The name of a line (30_encoding.md R104). -/
def Line.name : Line → String
  | .rUp => "R_UP"
  | .gUp => "G_UP"
  | .bUp => "B_UP"
  | .rLo => "R_LO"
  | .gLo => "G_LO"
  | .bLo => "B_LO"
  | .a => "A"
  | .b => "B"
  | .c => "C"
  | .d => "D"
  | .clk => "CLK"
  | .lat => "LAT"
  | .oe => "OE"
  | .aux => "AUX"

/-- One step in the trace syntax: the mnemonic, the implicit operands it reads, and its line writes. An operand without
a name (BWR's) has the empty name. -/
structure TraceLine where
  mnemonic : String
  operands : List (String × Nat)
  writes   : List (String × Nat)
  deriving DecidableEq, Repr

/-- The implicit operands an operation reads, as R112 lists them. -/
def traceOperands (i : Instr) (s : State) : List (String × Nat) :=
  match i with
  | .bsample => [("bank", s.bank.toNat)]
  | .data => [("r", s.row.toNat), ("c", s.col.toNat)]
  | .clkh => []
  | .clkl => []
  | .blank => []
  | .latl => []
  | .lwait => []
  | .lath => []
  | .addr => [("r", s.row.toNat)]
  | .unblank => []
  | .fhold => []
  | .bwr d => [("", d.toNat)]

/-- The line writes among a step's events. -/
def traceWrites : List Event → List (String × Nat)
  | [] => []
  | .lineWrite l v :: es => (l.name, v.toNat) :: traceWrites es
  | .frameRead _ _ _ :: es => traceWrites es
  | .bankRead _ :: es => traceWrites es
  | .bankWrite _ :: es => traceWrites es
  | .fault _ _ _ _ _ :: es => traceWrites es

/-- The trace line of an operation run in a state. -/
def traceLine (i : Instr) (s : State) : TraceLine :=
  { mnemonic := i.mnemonic
    operands := traceOperands i s
    writes :=
      match exec i s with
      | .next t => traceWrites (t.hist.headD [])
      | .fault _ => []
      | .refused _ => [] }

/-- `name=number`, or the number alone. -/
def showBinding (b : String × Nat) : String := if b.1 = "" then toString b.2 else b.1 ++ "=" ++ toString b.2

/-- A trace line as text, its parts one space apart (log entry 24). -/
def TraceLine.render (t : TraceLine) : String :=
  " ".intercalate ([t.mnemonic] ++ t.operands.map showBinding ++
    (if t.writes = [] then [] else "->" :: t.writes.map showBinding))

end Sys2Proof.Machine
end

