-- ==== Sys2Proof/Safety.lean ====
section
/-! DEFINITION. What counts as a good state and a safe run, in the terms the statements use: the invariant of the scan
sequence, the legality of the event history, the bank writer's contract, the step numbering and fair schedules. -/

namespace Sys2Proof.Machine

/-- A good state: "every claim takes FAULT = 0 as a premise of each state it speaks of" (60_exceptions.md R223). -/
abbrev State.good (s : State) : Prop := s.fault = false

/-- PH is in the column shift of a row: DATA, CLKH or CLKL (30_encoding.md R101). -/
abbrev inShift (ph : PhaseCode) : Prop := ph = Ph.data ∨ ph = Ph.clkh ∨ ph = Ph.clkl

/-- PH is in the row-end sequence: BLANK to UNBLANK (30_encoding.md R113, ROWEND). -/
abbrev inRowEnd (ph : PhaseCode) : Prop :=
  ph = Ph.blank ∨ ph = Ph.latl ∨ ph = Ph.lwait ∨ ph = Ph.lath ∨ ph = Ph.addr ∨ ph = Ph.unblank

/-- The invariant of the block: what every state that a run reaches from a reset state satisfies, whatever the
schedule, the Frame Store and the parameters. A clause about a line says nothing before the line's first write
(70_reset_and_hazards.md R261), hence the premises ROW ≠ 0 and COL ≠ 0. -/
structure Inv (s : State) : Prop where
  /-- The Frame Store keeps its canonical form. -/
  memWf : s.mem.wf = true
  /-- The five undriven lines stay low (10_state.md R41). -/
  undrivenLow : ∀ l : Line, l.driven = false → s.line l = false
  /-- PH holds no reserved code (42_row_scan.md R173). -/
  phLegal : s.ph = Ph.bsample ∨ inShift s.ph ∨ inRowEnd s.ph ∨ s.ph = Ph.fhold
  /-- FAULT = 1 exactly in FHOLD (60_exceptions.md R222, R223). -/
  faultIffHold : s.fault = true ↔ s.ph = Ph.fhold
  /-- FCODE is 0 without a fault, and the one fault a run can reach is FRAME_OOB (60_exceptions.md R220, R221). -/
  fcodeOk : s.fcode = if s.fault then FaultCode.frameOob.bits else fcodeNone
  /-- FB is written from the first BSAMPLE on (10_state.md R36). -/
  fbWritten : s.ph ≠ Ph.bsample → s.fb ≠ none
  /-- COL is 0 at BSAMPLE and through the row end (42_row_scan.md R164, R170). -/
  colZero : s.ph = Ph.bsample ∨ inRowEnd s.ph → s.col = 0#6
  /-- ROW is 0 at BSAMPLE (42_row_scan.md R170). -/
  rowZero : s.ph = Ph.bsample → s.row = 0#4
  /-- CLK is 1 between CLKH and CLKL (42_row_scan.md R163). -/
  clkHigh : s.ph = Ph.clkl → s.line .clk = true
  /-- CLK is 0 between pulses (30_encoding.md R105). -/
  clkLow : (s.ph = Ph.data ∨ s.ph = Ph.clkh) ∧ s.col ≠ 0#6 ∨ inRowEnd s.ph → s.line .clk = false
  /-- The two data lines hold the decoded pair of (ROW, COL) over the whole clock pulse (70_reset_and_hazards.md R263). -/
  dataStable : s.ph = Ph.clkh ∨ s.ph = Ph.clkl → ∃ b, s.fb = some b ∧
    pixelBit s.cfg.tbo s.mem b (bitPosUp s.row.toNat s.col.toNat) = some (s.line .gUp) ∧
    pixelBit s.cfg.tbo s.mem b (bitPosLo s.row.toNat s.col.toNat) = some (s.line .gLo)
  /-- OE is 1 from BLANK to UNBLANK (42_row_scan.md R176). -/
  oeBlank : inRowEnd s.ph ∧ s.ph ≠ Ph.blank → s.line .oe = true
  /-- OE is 0 through the column shift (42_row_scan.md R178). -/
  oeShift : (inShift s.ph ∨ s.ph = Ph.blank) ∧ s.row ≠ 0#4 → s.line .oe = false
  /-- LAT is 0 from LATL to LATH (70_reset_and_hazards.md R266). -/
  latLow : s.ph = Ph.lwait ∨ s.ph = Ph.lath → s.line .lat = false
  /-- LAT is 1 after LATH and through the next row's columns (42_row_scan.md R168). -/
  latHigh : s.ph = Ph.addr ∨ s.ph = Ph.unblank ∨
    (inShift s.ph ∨ s.ph = Ph.blank ∨ s.ph = Ph.latl) ∧ s.row ≠ 0#4 → s.line .lat = true
  /-- The address lines hold ROW at UNBLANK (42_row_scan.md R169). -/
  addrNow : s.ph = Ph.unblank → addrOf s.out = s.row
  /-- Before it they hold the row addressed by the previous ADDR (42_row_scan.md R178). -/
  addrBefore : (inShift s.ph ∨ inRowEnd s.ph ∧ s.ph ≠ Ph.unblank) ∧ s.row ≠ 0#4 → addrOf s.out = s.row - 1#4

/-- An event that a step of a state with this Frame Store and this TBO may make: a LineWrite of a driven line
(10_state.md R42), an admitted FrameRead that returned the stored byte (20_memory.md R72), a BankRead below NBANKS, any
BankWrite, or a fault whose record is true of it (60_exceptions.md R221): never BANK_RANGE (43_bank_select.md R205),
FRAME_OOB with the address of the faulting pixel and that address not admitted, PHASE with PH. -/
def Event.legal (tbo : Int) (m : Memory) : Event → Prop
  | .lineWrite l _ => l.driven = true
  | .frameRead b a byte => Admit m b a ∧ byte = readPort m b a
  | .bankRead v => v < NBANKS
  | .bankWrite _ => True
  | .fault .bankRange _ _ _ _ => False
  | .fault .frameOob _ row col info =>
    ∃ plane b, info = .read plane b (pixelAddr tbo (bitPos plane row.toNat col.toNat)) ∧
      ¬ Admit m b (pixelAddr tbo (bitPos plane row.toNat col.toNat))
  | .fault .phase ph _ _ info => info = .phase ph

/-- Every event of the history is one the block may make. -/
def State.traceLegal (s : State) : Prop := ∀ es ∈ s.hist, ∀ e ∈ es, e.legal s.cfg.tbo s.mem

/-- A move that a run of the block may make in a state: a bank write falls where COOP_SCHED lets it
(43_bank_select.md R204) and keeps the bank writer's contract (R203). -/
abbrev admittedTurn (s : State) : Turn → Prop
  | .sequencer => True
  | .bankPort w => portWe w = true → bankWriterEnabled s ∧ keepsContract w s
  | .press => bankWriterEnabled s
  | .reset => True

/-- The moves of the two agents alone: no reset. -/
abbrev noReset (ts : List Turn) : Prop := Turn.reset ∉ ts

/-- The sequencer position after `k` steps of the sequencer from the BSAMPLE of a frame (42_row_scan.md R174): step 0 of
a frame is BSAMPLE, step `1 + 198*r + 3*c` the DATA of row r and column c, and the steps from `1 + 198*r + 192` on the
row end of row r, at column 0. -/
def positionAt (k : Nat) : PhaseCode × RowIdx × ColIdx :=
  let j := k % 3169
  if j = 0 then (Ph.bsample, 0#4, 0#6)
  else
    let r := (j - 1) / 198
    let q := (j - 1) % 198
    if q < 192 then (BitVec.ofNat 4 (1 + q % 3), BitVec.ofNat 4 r, BitVec.ofNat 6 (q / 3))
    else (BitVec.ofNat 4 (4 + (q - 192)), BitVec.ofNat 4 r, 0#6)

/-- The position of a state (10_state.md R35). -/
def State.position (s : State) : PhaseCode × RowIdx × ColIdx := (s.ph, s.row, s.col)

/-- TBO is in the bound of 41_decode.md R141 for every bank. -/
abbrev tboFitsAll (s : State) : Prop := ∀ b : Bank, TboInBound s.cfg.tbo s.mem b

/-- The block may run without a fault (70_reset_and_hazards.md R262): the Frames meet the length invariant and TBO is
in its bound. -/
abbrev readyToRun (s : State) : Prop := framesAdmitted s.mem ∧ tboFitsAll s

/-- A bank write may fall before the sequencer step numbered `k` (43_bank_select.md R204). -/
def mayWriteBefore (coop : Bool) (k : Nat) : Bool := !coop || decide ((positionAt k).1 = Ph.lwait)

/-- A schedule of the two agents, without a reset, that a run of the block may follow from the sequencer step numbered
`k` and a BANK `b`: each bank write falls where COOP_SCHED lets it and keeps the contract (43_bank_select.md R203,
R204). -/
def admittedFrom (coop : Bool) (k : Nat) (b : Bank) : List Turn → Bool
  | [] => true
  | .sequencer :: ts => admittedFrom coop (k + 1) b ts
  | .bankPort w :: ts =>
    if portWe w then mayWriteBefore coop k && decide (portWd w = b + 1#2) && admittedFrom coop k (b + 1#2) ts
    else admittedFrom coop k b ts
  | .press :: ts => mayWriteBefore coop k && admittedFrom coop k (b + 1#2) ts
  | .reset :: _ => false

/-- `k` steps of the machine, the moves given one by one by an endless schedule. -/
def runFair (turns : Nat → Turn) : Nat → State → Host.Outcome State Fault Refusal
  | 0, s => .next s
  | k + 1, s =>
    match runFair turns k s with
    | .next t => step { t with sched := [turns k] }
    | .fault r => .fault r
    | .refused r => .refused r

/-- Weak fairness for the sequencer, which always has an enabled step unless it has faulted (92_eei_decisions.md D18):
the sequencer moves again and again. -/
def fair (turns : Nat → Turn) : Prop := ∀ n, ∃ m, n ≤ m ∧ turns m = .sequencer

/-- The invariant of the timed refinement: LAT is held at 0 from LATL to LATH for no less than LATCH_DELAY
(70_reset_and_hazards.md R266). -/
structure TimedInv (x : Timed) : Prop where
  /-- In LWAIT the line LAT is 0, and it has been since the LATL that completed at `latlAt`. -/
  started : x.base.ph = Ph.lwait → x.base.line .lat = false ∧ ∃ t0, x.latlAt = some t0 ∧ t0 ≤ x.now
  /-- At LATH the line LAT is still 0, and LATCH_DELAY has passed. -/
  waited  : x.base.ph = Ph.lath → x.base.line .lat = false ∧
    ∃ t0, x.latlAt = some t0 ∧ t0 + x.base.cfg.latchDelay ≤ x.now

/-- The panel shows row 15 (95_test_vectors.md E5): OE = 0, LAT = 1 and the address lines hold 15. -/
structure ShowsRowFifteen (s : State) : Prop where
  oe   : s.line .oe = false
  lat  : s.line .lat = true
  addr : addrOf s.out = 15#4

/-- PH is between the UNBLANK of row 15 and the end of the shift of row 0: BSAMPLE, or the column shift of row 0. -/
abbrev beforeRowZeroEnds (s : State) : Prop := s.ph = Ph.bsample ∨ inShift s.ph ∧ s.row = 0#4

end Sys2Proof.Machine
end

