-- ==== Sys2Proof/Certificates/Slice0/Obligations.lean ====
section
/-! DEFINITION. The statements for the provers, from the numbered rules of spec/. -/

open Sys2Proof Sys2Proof.Machine

/-! ### Encodings -/

/-- Words written out from 30_encoding.md R100 and R108 decode to the operations they stand for. -/
def Obligations.WrittenWordsDecode : Prop :=
  decode (.ph4 0b0000#4) = .ok .bsample ∧ decode (.ph4 0b0001#4) = .ok .data ∧ decode (.ph4 0b0011#4) = .ok .clkl ∧
  decode (.ph4 0b0110#4) = .ok .lwait ∧ decode (.ph4 0b1000#4) = .ok .addr ∧ decode (.ph4 0b1111#4) = .ok .fhold ∧
  decode (.bport3 0b101#3) = .ok (.bwr 1#2) ∧ decode (.bport3 0b110#3) = .ok (.bwr 2#2)

/-- Decode and encode agree in both directions, for every operation and every operand, on words and on bytes. That a
word stands in the low bits of a byte is the model's choice (log entry 14). -/
def Obligations.DecodeEncodeRoundTrip : Prop :=
  (∀ i : Instr, i.wellFormed = true → decode (encode i) = .ok i ∧
    decodeByte (encode i).format (BitVec.ofNat 8 (encode i).bits) = .ok i) ∧
  (∀ (w : EncWord) (i : Instr), decode w = .ok i → encode i = w) ∧
  (∀ (f : Format) (b : Byte) (i : Instr), decodeByte f b = .ok i → (encode i).format = f ∧ (encode i).bits = b.toNat)

/-- The decoder and the opcode map of twelve rows agree (30_encoding.md R111): eleven rows are PH codes with mask 0xF
and one is BWR, selected by bit 2 of the port word; a word is an operation's exactly where a row of that mnemonic
selects it, no word is selected by two rows, and no two rows share a mnemonic. -/
def Obligations.DecoderAgreesWithOpcodeTable : Prop :=
  opcodeTable.length = 12 ∧ (opcodeTable.countP fun r => decide (r.format = .ph4)) = 11 ∧
  (∀ r ∈ opcodeTable, r.format = .ph4 → r.mask = 0xF ∧
    ∀ c : PhaseCode, r.selects (.ph4 c) = true ↔ c.toNat = r.pattern) ∧
  (∀ w : PortWord, (∃ d, decode (.bport3 w) = .ok (.bwr d)) ↔ w.getLsbD 2 = true) ∧
  (∀ (w : EncWord) (name : String), (∃ i, decode w = .ok i ∧ i.mnemonic = name) ↔
    ∃ r ∈ opcodeTable, r.selects w = true ∧ r.mnemonic = name) ∧
  (∀ (w : EncWord), ∀ r ∈ opcodeTable, ∀ r' ∈ opcodeTable, r.selects w = true → r'.selects w = true → r = r') ∧
  (∀ r ∈ opcodeTable, ∀ r' ∈ opcodeTable, r.mnemonic = r'.mnemonic → r = r')

/-- Encodings that select nothing (30_encoding.md R110): the PH codes 0xA to 0xE, on which the sequencer's step takes
Fault(PHASE) and which no sequencer step writes, and a BPORT3 word with `we = 0`, which does nothing. -/
def Obligations.ReservedWordsSelectNothing : Prop :=
  (∀ c : PhaseCode, 0xA ≤ c.toNat → c.toNat ≤ 0xE → decode (.ph4 c) = .error (.reservedPhase c)) ∧
  (∀ s : State, 0xA ≤ s.ph.toNat → s.ph.toNat ≤ 0xE →
    sequencerTurn s = .next (raiseFault .phase (.phase s.ph) [] s)) ∧
  (∀ s t : State, sequencerTurn s = .next t → ¬ (0xA ≤ t.ph.toNat ∧ t.ph.toNat ≤ 0xE)) ∧
  (∀ wd : Bank, decode (.bport3 (portWord false wd)) = .error (.noWrite (portWord false wd)) ∧
    ∀ s : State, bankPortTurn (portWord false wd) s = .next s)

/-- The SEQ14 word (30_encoding.md R102): bits 13:10 are PH, 9:6 ROW and 5:0 COL, and it names the position whole. -/
def Obligations.Seq14NamesThePosition : Prop :=
  (∀ s : State, s.seq14.extractLsb' 10 4 = s.ph ∧ s.seq14.extractLsb' 6 4 = s.row ∧ s.seq14.extractLsb' 0 6 = s.col ∧
    s.seq14.toNat = 1024 * s.ph.toNat + 64 * s.row.toNat + s.col.toNat ∧ s.withSeq14 s.seq14 = s) ∧
  ∀ (s : State) (w : Seq14), (s.withSeq14 w).seq14 = w

/-! ### The micro-operations -/

/-- BSAMPLE (42_row_scan.md R161): FB from BANK, ROW and COL to 0, next DATA; no line is written and nothing else
changes. For a sampled value of 4 or more, which a 2-bit BANK never gives, Fault(BANK_RANGE) instead. It is the first
operation after reset and the one after the UNBLANK of row 15, and it sees a bank write made before it. That the record
of the step that faults holds its BankRead beside the FaultEvent is the model's reading (log entry 16). -/
def Obligations.BsampleSamplesTheBank : Prop :=
  encode .bsample = .ph4 0x0#4 ∧
  (∀ s : State, ∃ t, exec .bsample s = .next t ∧
    t = { s with fb := some s.bank, row := 0#4, col := 0#6, ph := 0x1#4, hist := [.bankRead s.bank.toNat] :: s.hist }) ∧
  (∀ (v : Nat) (s : State), NBANKS ≤ v → ∃ es, sampleBank v s =
    { s with fault := true, fcode := 1#2, ph := 0xF#4, hist := es :: s.hist } ∧
    es.Perm [.bankRead v, .fault .bankRange s.ph s.row s.col (.sampled v)]) ∧
  (∀ s : State, decode (.ph4 (assertReset s).ph) = .ok .bsample) ∧
  (∀ s t : State, s.row = 15#4 → exec .unblank s = .next t → decode (.ph4 t.ph) = .ok .bsample) ∧
  (∀ (d : Bank) (s t : State), exec (.bwr d) s = .next t → ∃ t', exec .bsample t = .next t' ∧ t'.fb = some d)

/-- DATA under the bound of 41_decode.md R141 (42_row_scan.md R162): it completes for every ROW and COL and drives
G_UP and G_LO to bit `c mod 8` of the bytes at `HDR_OFF + TBO - 8r - floor(c/8)` and `HDR_OFF + TBO - 16r - floor(c/8)`
of Frame FB (R137); next CLKH; every other line and register keeps its value, and at row 0 the two levels are equal. It
records, in some order, the two FrameReads with their bytes and the two LineWrites, whatever the lines held before
(20_memory.md R72, R76). -/
def Obligations.DataDrivesTheDecodedPair : Prop :=
  encode .data = .ph4 0x1#4 ∧
  ∀ (s : State) (b : Bank), s.fb = some b → TboInBound s.cfg.tbo s.mem b →
    let au := (59 + s.cfg.tbo - 8 * s.row.toNat - s.col.toNat / 8).toNat
    let al := (59 + s.cfg.tbo - 16 * s.row.toNat - s.col.toNat / 8).toNat
    let u := (readPort s.mem b au).getLsbD (s.col.toNat % 8)
    let l := (readPort s.mem b al).getLsbD (s.col.toNat % 8)
    ∃ t es, exec .data s = .next t ∧ t = { s with ph := 0x2#4, out := t.out, hist := es :: s.hist } ∧
      t.line .gUp = u ∧ t.line .gLo = l ∧ (∀ x, x ≠ .gUp → x ≠ .gLo → t.line x = s.line x) ∧
      (s.row = 0#4 → u = l) ∧
      es.Perm [.frameRead b au (readPort s.mem b au), .frameRead b al (readPort s.mem b al), .lineWrite .gUp u,
        .lineWrite .gLo l] ∧
      (∀ (b' : Bank) (a : Nat), readPort t.mem b' a = readPort s.mem b' a)

/-- The faults of DATA and their order (60_exceptions.md R221, R227): PHASE where FB is unwritten, before any read;
FRAME_OOB with the upper plane's address where that read is not admitted; FRAME_OOB with the lower plane's where only
that one is not, after the upper read. The step takes fault entry: FAULT, FCODE, PH and the record, and nothing else. That
the upper read stands in the record of a step that faults is the model's reading (log entry 19). -/
def Obligations.DataTakesItsFaultsInOrder : Prop :=
  (∀ s : State, s.fb = none → exec .data s = .next
    { s with fault := true, fcode := 3#2, ph := 0xF#4,
             hist := [.fault .phase s.ph s.row s.col (.phase s.ph)] :: s.hist }) ∧
  (∀ (s : State) (b : Bank), s.fb = some b →
    let upper := pixelAddr s.cfg.tbo (bitPosUp s.row.toNat s.col.toNat)
    let lower := pixelAddr s.cfg.tbo (bitPosLo s.row.toNat s.col.toNat)
    (¬ Admit s.mem b upper → exec .data s = .next
      { s with fault := true, fcode := 2#2, ph := 0xF#4,
               hist := [.fault .frameOob s.ph s.row s.col (.read .up b upper)] :: s.hist }) ∧
    (Admit s.mem b upper → ¬ Admit s.mem b lower → exec .data s = .next
      { s with fault := true, fcode := 2#2, ph := 0xF#4,
               hist := [.frameRead b upper.toNat (readPort s.mem b upper.toNat),
                        .fault .frameOob s.ph s.row s.col (.read .lo b lower)] :: s.hist }))

/-- CLKH, BLANK, LATL and LATH (42_row_scan.md §2): each completes in every state, drives its one line to its level,
goes to its successor and changes nothing else, and records that one LineWrite even where the level does not change. -/
def Obligations.SingleLineStepsDriveTheirLine : Prop :=
  ∀ x ∈ [(Instr.clkh, 0x2#4, Line.clk, true, 0x3#4), (.blank, 0x4#4, .oe, true, 0x5#4),
         (.latl, 0x5#4, .lat, false, 0x6#4), (.lath, 0x7#4, .lat, true, 0x8#4)],
    encode x.1 = .ph4 x.2.1 ∧
    ∀ s : State, ∃ t, exec x.1 s = .next t ∧ t = { s with ph := x.2.2.2.2, out := t.out, hist := t.hist } ∧
      t.line x.2.2.1 = x.2.2.2.1 ∧ (∀ l, l ≠ x.2.2.1 → t.line l = s.line l) ∧
      t.hist = [.lineWrite x.2.2.1 x.2.2.2.1] :: s.hist

/-- CLKL (42_row_scan.md R164): CLK to 0, COL + 1 modulo 64, and after column 63 BLANK, else DATA; nothing else. -/
def Obligations.ClklAdvancesTheColumn : Prop :=
  encode .clkl = .ph4 0x3#4 ∧
  ∀ s : State, ∃ t, exec .clkl s = .next t ∧
    t = { s with col := t.col, ph := t.ph, out := t.out, hist := [.lineWrite .clk false] :: s.hist } ∧
    t.line .clk = false ∧ (∀ l, l ≠ .clk → t.line l = s.line l) ∧
    t.col.toNat = (s.col.toNat + 1) % 64 ∧
    (s.col.toNat = 63 → t.ph = 0x4#4) ∧ (s.col.toNat ≠ 63 → t.ph = 0x1#4)

/-- LWAIT (42_row_scan.md R167, without its duration): it completes in every state, writes no line and goes to LATH. -/
def Obligations.LwaitChangesOnlyThePhase : Prop :=
  encode .lwait = .ph4 0x6#4 ∧ ∀ s : State, ∃ t, exec .lwait s = .next t ∧ t = { s with ph := 0x7#4, hist := [] :: s.hist } ∧
    (∀ l, t.line l = s.line l) ∧ s.observe.out = t.observe.out ∧ t.trace = s.trace ++ [[]]

/-- ADDR (42_row_scan.md R169, 30_encoding.md R106): A, B, C and D to bits 0 to 3 of ROW, so the address `{D, C, B, A}`
is ROW; next UNBLANK; nothing else, and the step's events are those four LineWrites in some order. -/
def Obligations.AddrPutsTheRowOnTheLines : Prop :=
  encode .addr = .ph4 0x8#4 ∧
  ∀ s : State, ∃ t, exec .addr s = .next t ∧ t = { s with ph := 0x9#4, out := t.out, hist := t.hist } ∧
    t.line .a = s.row.getLsbD 0 ∧ t.line .b = s.row.getLsbD 1 ∧ t.line .c = s.row.getLsbD 2 ∧
    t.line .d = s.row.getLsbD 3 ∧ addrOf t.out = s.row ∧
    (∀ l, l ≠ .a → l ≠ .b → l ≠ .c → l ≠ .d → t.line l = s.line l) ∧
    ∃ es, t.hist = es :: s.hist ∧
      es.Perm [.lineWrite .a (s.row.getLsbD 0), .lineWrite .b (s.row.getLsbD 1), .lineWrite .c (s.row.getLsbD 2),
        .lineWrite .d (s.row.getLsbD 3)]

/-- UNBLANK (42_row_scan.md R170): OE to 0, ROW + 1 modulo 16, and after row 15 BSAMPLE, else DATA; nothing else. -/
def Obligations.UnblankAdvancesTheRow : Prop :=
  encode .unblank = .ph4 0x9#4 ∧
  ∀ s : State, ∃ t, exec .unblank s = .next t ∧
    t = { s with row := t.row, ph := t.ph, out := t.out, hist := [.lineWrite .oe false] :: s.hist } ∧
    t.line .oe = false ∧ (∀ l, l ≠ .oe → t.line l = s.line l) ∧
    t.row.toNat = (s.row.toNat + 1) % 16 ∧
    (s.row.toNat = 15 → t.ph = 0x0#4) ∧ (s.row.toNat ≠ 15 → t.ph = 0x1#4)

/-- FHOLD (60_exceptions.md R223): in a state with PH = 0xF the sequencer has no step, and the machine stops there by
name; a PRESS, or its word on the port, still completes where COOP_SCHED is false and changes BANK and the record alone;
where it is true the bank writer has no step either; and only the reset input leaves the state. The names of the two
stops are the model's (log entries 10 and 11). -/
def Obligations.FholdHasNoStep : Prop :=
  encode .fhold = .ph4 0xF#4 ∧
  (∀ s : State, exec .fhold s = .fault .sequencerHalted) ∧
  (∀ s : State, s.ph = 0xF#4 → sequencerTurn s = .fault .sequencerHalted) ∧
  (∀ s : State, s.ph = 0xF#4 → s.cfg.coopSched = false →
    takeTurn .press s = .next { s with bank := s.bank + 1#2, hist := [.bankWrite (s.bank + 1#2)] :: s.hist } ∧
    takeTurn (.bankPort (portWord true (s.bank + 1#2))) s =
      .next { s with bank := s.bank + 1#2, hist := [.bankWrite (s.bank + 1#2)] :: s.hist }) ∧
  (∀ s : State, s.ph = 0xF#4 → s.cfg.coopSched = true → takeTurn .press s = .fault .bankWriterNotEnabled ∧
    ∀ d : Bank, takeTurn (.bankPort (portWord true d)) s = .fault .bankWriterNotEnabled) ∧
  (∀ (x : Turn) (s t : State), s.ph = 0xF#4 → x ≠ .reset → takeTurn x s = .next t →
    t.ph = 0xF#4 ∧ t.out = s.out ∧ t.row = s.row ∧ t.col = s.col ∧ t.fb = s.fb ∧ t.fault = s.fault ∧ t.fcode = s.fcode)

/-- BWR (43_bank_select.md R202): it completes for every 2-bit value in every state, writes BANK, records a BankWrite,
and leaves FB, the lines and everything else. Of two writes the later stays. -/
def Obligations.BwrWritesTheBank : Prop :=
  (∀ d : Bank, encode (.bwr d) = .bport3 (1#1 ++ d)) ∧
  (∀ (d : Bank) (s : State), ∃ t, exec (.bwr d) s = .next t ∧
    t = { s with bank := d, hist := [.bankWrite d] :: s.hist } ∧ (∀ l, t.line l = s.line l) ∧
    (∀ (b : Bank) (a : Nat), readPort t.mem b a = readPort s.mem b a)) ∧
  (∀ (d d' : Bank) (s t t' : State), exec (.bwr d) s = .next t → exec (.bwr d') t = .next t' → t'.bank = d')

/-- The frame of all twelve operations: whatever operation completes, the Frame Store reads as before at every address,
the parameters and the schedule are unchanged, exactly one list of events is recorded, a line changes only under the
operation that writes it, and FAULT and FCODE change only by fault entry, which changes nothing but PH beside them. -/
def Obligations.OperationsKeepWhatTheyDoNotName : Prop :=
  ∀ (i : Instr) (s t : State), exec i s = .next t →
    (∀ (b : Bank) (a : Nat), readPort t.mem b a = readPort s.mem b a) ∧ t.mem = s.mem ∧ t.cfg = s.cfg ∧
    t.sched = s.sched ∧ (∃ es, t.hist = es :: s.hist) ∧
    (t.line .clk ≠ s.line .clk → i = .clkh ∨ i = .clkl) ∧
    (t.line .lat ≠ s.line .lat → i = .latl ∨ i = .lath) ∧
    (t.line .oe ≠ s.line .oe → i = .blank ∨ i = .unblank) ∧
    (addrOf t.out ≠ addrOf s.out → i = .addr) ∧
    (t.line .gUp ≠ s.line .gUp ∨ t.line .gLo ≠ s.line .gLo → i = .data) ∧
    (t.fb ≠ s.fb → i = .bsample) ∧
    (t.row ≠ s.row → i = .bsample ∨ i = .unblank) ∧ (t.col ≠ s.col → i = .bsample ∨ i = .clkl) ∧
    (t.bank ≠ s.bank → ∃ d, i = .bwr d) ∧
    (t.fault ≠ s.fault ∨ t.fcode ≠ s.fcode → i = .data ∧
      t = { s with fault := true, fcode := t.fcode, ph := 0xF#4, hist := t.hist })

/-! ### The sequence -/

/-- The successor table (42_row_scan.md R173), row by row. -/
def Obligations.SuccessorTable : Prop :=
  ∀ s : State,
    (s.ph = Ph.bsample → ∃ t, sequencerTurn s = .next t ∧ t.position = (Ph.data, 0#4, 0#6) ∧ t.fb = some s.bank) ∧
    (s.ph = Ph.data → ∀ b, s.fb = some b →
      (∀ pl : Plane, Admit s.mem b (pixelAddr s.cfg.tbo (bitPos pl s.row.toNat s.col.toNat))) →
      ∃ t, sequencerTurn s = .next t ∧ t.position = (Ph.clkh, s.row, s.col) ∧ t.fb = s.fb) ∧
    (s.ph = Ph.clkh → ∃ t, sequencerTurn s = .next t ∧ t.position = (Ph.clkl, s.row, s.col) ∧ t.fb = s.fb) ∧
    (s.ph = Ph.clkl → s.col.toNat < 63 →
      ∃ t, sequencerTurn s = .next t ∧ t.position = (Ph.data, s.row, s.col + 1#6) ∧ t.fb = s.fb) ∧
    (s.ph = Ph.clkl → s.col.toNat = 63 →
      ∃ t, sequencerTurn s = .next t ∧ t.position = (Ph.blank, s.row, 0#6) ∧ t.fb = s.fb) ∧
    (∀ x ∈ [(Ph.blank, Ph.latl), (Ph.latl, Ph.lwait), (Ph.lwait, Ph.lath), (Ph.lath, Ph.addr), (Ph.addr, Ph.unblank)],
      s.ph = x.1 → ∃ t, sequencerTurn s = .next t ∧ t.position = (x.2, s.row, s.col) ∧ t.fb = s.fb) ∧
    (s.ph = Ph.unblank → s.row.toNat < 15 →
      ∃ t, sequencerTurn s = .next t ∧ t.position = (Ph.data, s.row + 1#4, s.col) ∧ t.fb = s.fb) ∧
    (s.ph = Ph.unblank → s.row.toNat = 15 →
      ∃ t, sequencerTurn s = .next t ∧ t.position = (Ph.bsample, 0#4, s.col) ∧ t.fb = s.fb) ∧
    (s.ph = Ph.fhold → ∀ t, sequencerTurn s ≠ .next t) ∧
    (∀ t, sequencerTurn s = .next t → ¬ (0xA ≤ t.ph.toNat ∧ t.ph.toNat ≤ 0xE) ∧
      (t.ph = Ph.fhold → t.fault = true ∧ ∃ c : FaultCode, t.fcode = c.bits))

/-- The scan position depends only on how often the sequencer has moved (42_row_scan.md R174, R179, 60_exceptions.md
R225): from the BSAMPLE of a frame, with TBO in its bound, under every schedule of sequencer moves and bank-writer moves
that COOP_SCHED, true or false, and the bank writer's contract admit, the run goes through to its end without a fault
and stands at the position that the step numbering gives. -/
def Obligations.ScanPositionCountsSequencerMoves : Prop :=
  ∀ s : State, readyToRun s → s.good → s.position = (Ph.bsample, 0#4, 0#6) →
    admittedFrom s.cfg.coopSched 0 s.bank s.sched = true →
    ∃ t, Host.Core.run Sys2Proof.core s.sched.length s = .next t ∧
      t.position = positionAt (s.sched.count .sequencer) ∧ t.good ∧ t.sched = []

/-- The row end with the sequencer alone (42_row_scan.md R176, 95_test_vectors.md E5): from BLANK on, OE, LAT and the
row address after each of the six steps; OE is 1 over the whole latch pulse and the whole address update. -/
def Obligations.RowEndBlanksLatchesAddressesUnblanks : Prop :=
  ∀ s : State, framesAdmitted s.mem → s.sched = [] → s.ph = Ph.blank →
    ∀ x ∈ [(1, true, s.line .lat, addrOf s.out), (2, true, false, addrOf s.out), (3, true, false, addrOf s.out),
           (4, true, true, addrOf s.out), (5, true, true, s.row), (6, false, true, s.row)],
      ∃ t, Host.Core.run Sys2Proof.core x.1 s = .next t ∧
        t.line .oe = x.2.1 ∧ t.line .lat = x.2.2.1 ∧ addrOf t.out = x.2.2.2 ∧ t.line .clk = s.line .clk

/-- Row 0 of a later frame is shifted while row 15 shows (42_row_scan.md R178, 95_test_vectors.md E5,
70_reset_and_hazards.md R272): the UNBLANK of row 15 leaves OE = 0, LAT = 1 and address row 15; every step but a reset,
under every schedule, keeps them through BSAMPLE and the column shift of row 0; and with the sequencer alone they hold
after each of the 194 steps from that UNBLANK on, until BLANK, the 195th, sets OE to 1. -/
def Obligations.LaterFramesShowRowFifteenWhileRowZeroShifts : Prop :=
  (∀ s t : State, Inv s → s.ph = Ph.unblank → s.row = 15#4 → s.nextTurn = .sequencer → step s = .next t →
    t.ph = Ph.bsample ∧ ShowsRowFifteen t) ∧
  (∀ s t : State, ShowsRowFifteen s → beforeRowZeroEnds s → s.nextTurn ≠ .reset → step s = .next t →
    ShowsRowFifteen t ∧ (beforeRowZeroEnds t ∨ t.ph = Ph.blank ∧ t.row = 0#4 ∨ t.ph = Ph.fhold)) ∧
  (∀ s : State, readyToRun s → Inv s → s.sched = [] → s.ph = Ph.unblank → s.row = 15#4 →
    (∀ k, 1 ≤ k → k ≤ 194 → ∃ t, Host.Core.run Sys2Proof.core k s = .next t ∧ ShowsRowFifteen t) ∧
    ∃ t, Host.Core.run Sys2Proof.core 195 s = .next t ∧ t.line .oe = true)

/-- The bank is sampled once per frame (42_row_scan.md R177): FB changes only at BSAMPLE, so from a BSAMPLE on, under
every schedule without a reset, FB is the value BANK had there for the whole frame of 3169 steps, whatever is written
to BANK meanwhile. -/
def Obligations.BankIsSampledOncePerFrame : Prop :=
  (∀ s t : State, step s = .next t → s.nextTurn ≠ .reset → (s.nextTurn = .sequencer → s.ph ≠ Ph.bsample) →
    t.fb = s.fb) ∧
  (∀ (s t : State) (ts : List Turn), s.sched = .sequencer :: ts → s.position = (Ph.bsample, 0#4, 0#6) → noReset ts →
    ts.count .sequencer ≤ 3168 → Host.Core.run Sys2Proof.core (ts.length + 1) s = .next t → t.fb = some s.bank)

/-- Each line keeps its INIT_LEVEL until its first write (70_reset_and_hazards.md R261): G_UP and G_LO until step 1,
CLK until step 2, OE until step 193, LAT until step 194, the address lines until step 197, for every INIT_LEVELS. -/
def Obligations.LinesKeepInitLevelsUntilFirstWrite : Prop :=
  ∀ (cfg : Config) (mem : Memory) (k : Nat) (t : State),
    Host.Core.run Sys2Proof.core k (powerOn cfg mem []) = .next t →
    (k ≤ 1 → t.line .gUp = cfg.initLevels.gUp ∧ t.line .gLo = cfg.initLevels.gLo) ∧
    (k ≤ 2 → t.line .clk = cfg.initLevels.clk) ∧ (k ≤ 193 → t.line .oe = cfg.initLevels.oe) ∧
    (k ≤ 194 → t.line .lat = cfg.initLevels.lat) ∧
    (k ≤ 197 → t.line .a = cfg.initLevels.a ∧ t.line .b = cfg.initLevels.b ∧ t.line .c = cfg.initLevels.c ∧
      t.line .d = cfg.initLevels.d)

/-- The pseudo-operations (30_encoding.md R113): their lengths, and FRAME is the operations that the step numbering of
42_row_scan.md R174 selects one after the other. -/
def Obligations.FrameOperationsFollowTheStepNumbers : Prop :=
  pulse.length = 2 ∧ column.length = 3 ∧ rowEnd.length = 6 ∧ scanRow.length = 198 ∧ frameOps.length = 3169 ∧
  (∀ s : State, pressOp s = .bwr (s.bank + 1#2)) ∧
  frameOps.map encode = (List.range 3169).map fun k => EncWord.ph4 (positionAt k).1

/-! ### The decoder -/

/-- The bit-position code (30_encoding.md R107, which the spec marks as derived): both positions are concatenations,
and so are their byte and bit offsets. -/
def Obligations.BitPositionsAreConcatenations : Prop :=
  ∀ (r : RowIdx) (c : ColIdx),
    (r ++ c).toNat = bitPosUp r.toNat c.toNat ∧ (r ++ 0#1 ++ c).toNat = bitPosLo r.toNat c.toNat ∧
    byteOff (bitPosUp r.toNat c.toNat) = (r ++ c.extractLsb' 3 3).toNat ∧
    byteOff (bitPosLo r.toNat c.toNat) = (r ++ 0#1 ++ c.extractLsb' 3 3).toNat ∧
    bitOff (bitPosUp r.toNat c.toNat) = (c.extractLsb' 0 3).toNat ∧
    bitOff (bitPosLo r.toNat c.toNat) = (c.extractLsb' 0 3).toNat

/-- Closed forms and row view (41_decode.md R137, R142, which the spec marks as derived): with m = floor(c/8), ByteIdx
is `TBO - 8r - m` in the upper plane and `TBO - 16r - m` in the lower, Addr is HDR_OFF more, and the bit offset is c
mod 8 in both; lower row r reads 64-bit row 2r of the upper counting. -/
def Obligations.PixelAddressClosedForms : Prop :=
  ∀ (tbo : Int) (r c : Nat), r < 16 → c < 64 →
    byteIdx tbo (bitPosUp r c) = tbo - 8 * r - (c / 8 : Nat) ∧ byteIdx tbo (bitPosLo r c) = tbo - 16 * r - (c / 8 : Nat) ∧
    pixelAddr tbo (bitPosUp r c) = 59 + tbo - 8 * r - (c / 8 : Nat) ∧
    pixelAddr tbo (bitPosLo r c) = 59 + tbo - 16 * r - (c / 8 : Nat) ∧
    bitOff (bitPosUp r c) = c % 8 ∧ bitOff (bitPosLo r c) = c % 8 ∧
    bitPosLo r c = bitPosUp (2 * r) c ∧
    tbo - 8 * r - 7 ≤ byteIdx tbo (bitPosUp r c) ∧ byteIdx tbo (bitPosUp r c) ≤ tbo - 8 * r

/-- The byte offsets a frame reads (41_decode.md R138): exactly 0 to 127 and, from 128 to 247, those of `16r + m` with
m below 8; they are 192. In the upper plane the offset is `8r + floor(c/8)`, in the lower `16r + floor(c/8)`. -/
def Obligations.ByteOffsetsOfAFrame : Prop :=
  (∀ k : Nat, (∃ r c pl, r < 16 ∧ c < 64 ∧ byteOff (bitPos pl r c) = k) ↔ k < 248 ∧ (k < 128 ∨ k % 16 < 8)) ∧
  (∀ r c, r < 16 → c < 64 → byteOff (bitPosUp r c) = 8 * r + c / 8 ∧ byteOff (bitPosUp r c) ≤ 127 ∧
    byteOff (bitPosLo r c) = 16 * r + c / 8 ∧ byteOff (bitPosLo r c) ≤ 247) ∧
  ((List.range 248).countP fun k => decide (k < 128 ∨ k % 16 < 8)) = 192

/-- The positions of one plane are distinct (41_decode.md R139), and the two planes meet exactly where the upper row is
twice the lower (R140). -/
def Obligations.PositionsAreDistinctWithinAPlane : Prop :=
  (∀ (pl : Plane) (r c r' c' : Nat), r < 16 → c < 64 → r' < 16 → c' < 64 → bitPos pl r c = bitPos pl r' c' →
    r = r' ∧ c = c') ∧
  (∀ r c r' c' : Nat, r < 16 → c < 64 → r' < 16 → c' < 64 → (bitPosUp r c = bitPosLo r' c' ↔ c = c' ∧ r = 2 * r'))

/-- The well-formedness bound (41_decode.md R141): every read of every frame drawn from a bank is admitted exactly
where `247 <= TBO <= L[b] - 1 - HDR_OFF`, and under the length invariant every TBO from 247 to 255 is in it; outside the
bound some pixel's DATA takes Fault(FRAME_OOB). -/
def Obligations.TboBoundIsExact : Prop :=
  (∀ (tbo : Int) (m : Memory) (b : Bank),
    (∀ (pl : Plane) (r c : Nat), r < 16 → c < 64 → Admit m b (pixelAddr tbo (bitPos pl r c))) ↔ TboInBound tbo m b) ∧
  (∀ (tbo : Int) (m : Memory) (b : Bank), framesAdmitted m → 247 ≤ tbo → tbo ≤ 255 → TboInBound tbo m b) ∧
  (∀ (s : State) (b : Bank), s.fb = some b → ¬ TboInBound s.cfg.tbo s.mem b → ∃ (r : RowIdx) (c : ColIdx) (t : State),
    exec .data { s with row := r, col := c } = .next t ∧ t.fault = true ∧ t.fcode = 2#2)

/-- The decode reads the asset's most-significant-bit-first stream in reverse (41_decode.md R143): position p reads
stream position `8*TBO + 7 - p`. -/
def Obligations.DecodeReadsTheStreamInReverse : Prop :=
  ∀ (tbo : Int) (m : Memory) (b : Bank) (p : Nat), Admit m b (pixelAddr tbo p) →
    pixelBit tbo m b p = some (streamBit m b (8 * tbo + 7 - p).toNat) ∧
    8 * byteIdx tbo p + 7 - bitOff p = 8 * tbo + 7 - p

/-- FrameRead (20_memory.md R72, R73): it returns the stored byte exactly where HDR_OFF <= a <= L[b] - 1, and nothing
elsewhere, so no header byte is ever returned. -/
def Obligations.FrameReadAdmitsThePixelRegion : Prop :=
  ∀ (m : Memory) (b : Bank) (a : Int),
    (59 ≤ a → a ≤ (m.frame b).len - 1 → frameRead m b a = some (readPort m b a.toNat)) ∧
    (a < 59 → frameRead m b a = none) ∧ ((m.frame b).len ≤ a → frameRead m b a = none)

/-- A byte placed in a Frame at build time is read back, and every other byte of the Frame Store reads as before. -/
def Obligations.PlacedByteIsReadBack : Prop :=
  ∀ (m : Memory) (b b' : Bank) (a a' : Nat) (v : Byte), m.wf = true → a < (m.frame b).len →
    readPort (m.put b a v) b a = v ∧
    (b' ≠ b ∨ a' ≠ a → readPort (m.put b a v) b' a' = readPort m b' a') ∧
    ((m.put b a v).frame b').len = (m.frame b').len

/-- The canonical form makes equal contents equal data. The form, and that an unlisted address reads as 0, is the model's
own way of writing a Frame Store down (log entry 5): the spec leaves the contents OPEN and speaks of no such form. -/
def Obligations.CanonicalStoresWithEqualBytesAreEqual : Prop :=
  ∀ m m' : Memory, m.wf = true → m'.wf = true → (∀ b : Bank, (m.frame b).len = (m'.frame b).len) →
    (∀ (b : Bank) (a : Nat), a < (m.frame b).len → readPort m b a = readPort m' b a) → m = m'

/-! ### Faults, reset and configuration -/

/-- Fault entry (60_exceptions.md R222): FAULT, FCODE and PH are written with the code of R220, the FaultEvent is
recorded with the PH before it, and ROW, COL, FB, BANK and every line keep their values. That the reads the step made
stand in the record beside the fault is the model's reading (log entry 19). -/
def Obligations.FaultEntryIsPrecise : Prop :=
  ∀ (c : FaultCode) (info : FaultInfo) (reads : List Event) (s : State),
    let t := raiseFault c info reads s
    t.fault = true ∧ (t.fcode.toNat = match c with | .bankRange => 1 | .frameOob => 2 | .phase => 3) ∧ t.ph = 0xF#4 ∧
    t.row = s.row ∧ t.col = s.col ∧ t.fb = s.fb ∧ t.bank = s.bank ∧ (∀ l, t.line l = s.line l) ∧ t.mem = s.mem ∧
    t.cfg = s.cfg ∧ t.sched = s.sched ∧ ∃ es, t.hist = es :: s.hist ∧ es.Perm (.fault c s.ph s.row s.col info :: reads)

/-- Reset (70_reset_and_hazards.md R260): the state it leaves from any state, FHOLD included, for every INIT_LEVELS; it
records no event, and the Frame Store and the parameters, which are constant, are as before. -/
def Obligations.ResetLeavesTheInitialState : Prop :=
  ∀ s : State, ∃ t, takeTurn .reset s = .next t ∧
    t.ph = 0x0#4 ∧ t.row = 0#4 ∧ t.col = 0#6 ∧ t.fb = none ∧ t.fault = false ∧ t.fcode = 0#2 ∧ t.bank = 0#2 ∧
    (∀ l : Line, l.driven = false → t.line l = false) ∧
    t.line .gUp = s.cfg.initLevels.gUp ∧ t.line .gLo = s.cfg.initLevels.gLo ∧ t.line .clk = s.cfg.initLevels.clk ∧
    t.line .lat = s.cfg.initLevels.lat ∧ t.line .oe = s.cfg.initLevels.oe ∧ t.line .a = s.cfg.initLevels.a ∧
    t.line .b = s.cfg.initLevels.b ∧ t.line .c = s.cfg.initLevels.c ∧ t.line .d = s.cfg.initLevels.d ∧
    (∀ es ∈ t.hist, es ∈ s.hist) ∧ t.mem = s.mem ∧ t.cfg = s.cfg

/-- Only reset clears FAULT and FCODE (60_exceptions.md R224): in a faulted FHOLD state every step but a reset leaves
them, and no step raises a second fault. -/
def Obligations.OnlyResetClearsAFault : Prop :=
  ∀ s t : State, s.ph = Ph.fhold → s.fault = true → step s = .next t → s.nextTurn ≠ .reset →
    t.ph = Ph.fhold ∧ t.fault = true ∧ t.fcode = s.fcode ∧ t.out = s.out ∧
    (t.hist = s.hist ∨ ∃ d, t.hist = [.bankWrite d] :: s.hist)

/-- The configuration refusal (60_exceptions.md R226): a step is refused exactly where some Frame is shorter than
HDR_OFF + 256 = 315 bytes, in every state and whatever TBO is. -/
def Obligations.UndersizedFrameIsRefused : Prop :=
  ∀ s : State, ((∃ b : Bank, (s.mem.frame b).len < 315) → step s = .refused .undersizedFrame) ∧
    ((∀ b : Bank, 315 ≤ (s.mem.frame b).len) → ∀ r, step s ≠ .refused r)

/-! ### The agents -/

/-- Scheduling of the bank writer (43_bank_select.md R203, R204): with COOP_SCHED = false a PRESS, and its word on the
port, completes in every state; with COOP_SCHED = true both complete in LWAIT and no write is admitted in any other
phase. The name of that stop is the model's (log entry 10). -/
def Obligations.BankWriterMovesWhereTheScheduleAdmitsIt : Prop :=
  ∀ (s : State) (ts : List Turn), framesAdmitted s.mem →
    (s.sched = .press :: ts ∨ s.sched = .bankPort (portWord true (s.bank + 1#2)) :: ts →
      s.cfg.coopSched = false ∨ s.ph = Ph.lwait →
      step s =
        .next { s with bank := s.bank + 1#2, sched := ts, hist := [.bankWrite (s.bank + 1#2)] :: s.hist }) ∧
    (s.sched = .press :: ts ∨ (∃ d, s.sched = .bankPort (portWord true d) :: ts) → s.cfg.coopSched = true →
      s.ph ≠ Ph.lwait → step s = .fault .bankWriterNotEnabled)

/-- The bank writer's contract (43_bank_select.md R203, 92_eei_decisions.md D12): every step but a reset leaves BANK or
is the bank writer's and writes (BANK + 1) mod 4; a word on the port with that value is the step PRESS; a word with
another value makes no step, and stops under a name that is the model's (log entry 9); and a move of the bank writer
completes exactly where COOP_SCHED and the contract admit it. -/
def Obligations.BankWriterHasNoMoveButPress : Prop :=
  (∀ s t : State, step s = .next t → s.nextTurn ≠ .reset → t.bank = s.bank ∨
    s.nextTurn ≠ .sequencer ∧ t.bank.toNat = (s.bank.toNat + 1) % 4 ∧ t.hist = [.bankWrite t.bank] :: s.hist) ∧
  (∀ (s : State) (ts : List Turn), s.sched = .bankPort (portWord true (s.bank + 1#2)) :: ts →
    step s = step { s with sched := .press :: ts }) ∧
  (∀ (s : State) (d : Bank), d ≠ s.bank + 1#2 → bankWriterEnabled s →
    takeTurn (.bankPort (portWord true d)) s = .fault .bankWriterContract) ∧
  (∀ (s : State) (x : Turn), x ≠ .sequencer → ((∃ t, takeTurn x s = .next t) ↔ admittedTurn s x))

/-- Access rights follow ownership (60_exceptions.md R229): a sequencer step leaves BANK, a bank-writer step leaves
every line and every sequencer register, and no step of either writes the Frame Store or the parameters. -/
def Obligations.AccessRightsFollowOwnership : Prop :=
  ∀ s t : State, step s = .next t →
    (t.mem = s.mem ∧ t.cfg = s.cfg) ∧
    (s.nextTurn = .sequencer → t.bank = s.bank) ∧
    (∀ w, s.nextTurn = .bankPort w ∨ s.nextTurn = .press →
      t.out = s.out ∧ t.ph = s.ph ∧ t.row = s.row ∧ t.col = s.col ∧ t.fb = s.fb ∧ t.fault = s.fault ∧
      t.fcode = s.fcode)

/-- The lines R_UP, B_UP, R_LO, B_LO and AUX (10_state.md R41): no operation writes one or records a write of one; reset
sets them to 0 from any state, and every step keeps them at 0. -/
def Obligations.UndrivenLinesStayLow : Prop :=
  (∀ l : Line, l.driven = false ↔ l ∈ [Line.rUp, .bUp, .rLo, .bLo, .aux]) ∧
  (∀ (i : Instr) (s t : State) (l : Line), exec i s = .next t → l.driven = false →
    t.line l = s.line l ∧ ∀ es, t.hist = es :: s.hist → ∀ v, Event.lineWrite l v ∉ es) ∧
  (∀ (s : State) (l : Line), l.driven = false → (assertReset s).line l = false) ∧
  (∀ s t : State, step s = .next t → (∀ l : Line, l.driven = false → s.line l = false) →
    ∀ l : Line, l.driven = false → t.line l = false)

/-- The sequencer never waits on the bank writer (42_row_scan.md R179): whether its step completes does not depend on
BANK, and outside BSAMPLE the value of BANK is nowhere in what the step does. -/
def Obligations.SequencerNeverWaitsOnTheBankWriter : Prop :=
  ∀ (s : State) (v : Bank),
    (∀ t, sequencerTurn s = .next t → ∃ t', sequencerTurn { s with bank := v } = .next t' ∧ t'.ph = t.ph ∧
      t'.out = t.out) ∧
    (s.ph ≠ Ph.bsample → ∀ t, sequencerTurn s = .next t → sequencerTurn { s with bank := v } = .next { t with bank := v })

/-- DATA reads Frame FB and no other (42_row_scan.md R162, R177): two states that agree on Frame FB drive the same
levels, whatever the other Frames and BANK hold. -/
def Obligations.DataReadsOnlyTheSampledFrame : Prop :=
  ∀ (s : State) (b : Bank) (m : Memory) (v : Bank), s.fb = some b → m.frame b = s.mem.frame b →
    ∀ t, exec .data s = .next t → exec .data { s with mem := m, bank := v } = .next { t with mem := m, bank := v }

/-- After n presses and any number of sequencer steps BANK has gone up by n modulo 4, so from reset it is n mod 4
(43_bank_select.md R206). -/
def Obligations.BankCountsPressesModuloFour : Prop :=
  ∀ s t : State, (∀ x ∈ s.sched, x = .sequencer ∨ x = .press) →
    Host.Core.run Sys2Proof.core s.sched.length s = .next t →
    t.bank.toNat = (s.bank.toNat + s.sched.count .press) % 4

/-- A step runs the decoded operation: with the sequencer to move, step is exec of the operation PH selects, at the
state with the move taken off the schedule; with a write on the bank write port that COOP_SCHED and the contract admit, it
is exec of the BWR the word selects; a placed table word is run by the very next step, which is the model's own convention (log
entries 13 and 15). -/
def Obligations.StepRunsTheDecodedOperation : Prop :=
  (∀ (s : State) (i : Instr), framesAdmitted s.mem → s.nextTurn = .sequencer → decode (.ph4 s.ph) = .ok i →
    step s = exec i { s with sched := s.sched.tail }) ∧
  (∀ (s : State) (w : PortWord) (i : Instr), framesAdmitted s.mem → s.nextTurn = .bankPort w → bankWriterEnabled s →
    keepsContract w s → decode (.bport3 w) = .ok i → step s = exec i { s with sched := s.sched.tail }) ∧
  (∀ s : State, framesAdmitted s.mem → s.nextTurn = .press → bankWriterEnabled s →
    step s = exec (.bwr (s.bank + 1#2)) { s with sched := s.sched.tail }) ∧
  (∀ (s : State) (nbits w : Nat) (i : Instr), framesAdmitted s.mem → decodeTableWord nbits w = some i →
    ∃ s', s' = s.withFetchWord nbits w ∧ step s' = exec i { s' with sched := s.sched })

/-- The history is a record only (10_state.md R48): a step adds at most one list of events to it, and a step of the
same state with another history does the same and records the same. That a reset and a no-operation word keep the
record, and that each adds nothing to it, is the model's choice (log entry 6). -/
def Obligations.HistoryIsNeverRead : Prop :=
  ∀ (s t : State) (h : List (List Event)), step s = .next t →
    ∃ es, es.length ≤ 1 ∧ t.hist = es ++ s.hist ∧ step { s with hist := h } = .next { t with hist := es ++ h }

/-! ### Invariants and liveness -/

/-- Every reset state satisfies the invariant, for every parameter, every canonical Frame Store and every schedule; and
so does State.reset. -/
def Obligations.ResetStatesSatisfyTheInvariant : Prop :=
  Inv State.reset ∧ ∀ (cfg : Config) (mem : Memory) (ts : List Turn), mem.wf = true → Inv (powerOn cfg mem ts)

/-- Every step keeps the invariant: the phase stays legal, the undriven lines stay low, the panel is dark whenever it
latches or its address changes, the data lines hold the decoded pair over the clock pulse, and the memory keeps its
canonical form (42_row_scan.md R173, R176, R178; 70_reset_and_hazards.md R263 to R266). -/
def Obligations.StepKeepsTheInvariant : Prop :=
  ∀ s t : State, Inv s → step s = .next t → Inv t

/-- Every step keeps the history legal: no header byte is ever read, no undriven line is ever written, every recorded
byte is the stored one and every recorded fault is true of its pixel (20_memory.md R71, 10_state.md R41,
60_exceptions.md R221). -/
def Obligations.StepKeepsTheHistoryLegal : Prop :=
  ∀ s t : State, s.traceLegal → step s = .next t → t.traceLegal

/-- Without a fault the sequencer always has a step (60_exceptions.md R225): in every state that satisfies the invariant
with FAULT = 0, and whatever bank writes come before it. -/
def Obligations.SequencerIsAlwaysEnabled : Prop :=
  ∀ s : State, Inv s → s.good →
    (∃ t, sequencerTurn s = .next t) ∧
    ∀ (x : Turn) (t : State), x ≠ .sequencer → takeTurn x s = .next t → ∃ t', sequencerTurn t = .next t'

/-- The run has no end and every wait ends (00_scope.md R25, 42_row_scan.md R167, 92_eei_decisions.md D18): from a
fault-free state of the invariant, with TBO in its bound, every fair endless schedule without a reset whose bank writes
COOP_SCHED, true or false, and the contract admit runs on for ever without a fault, and LATH is reached again and
again. -/
def Obligations.FairRunsLatchAgainAndAgain : Prop :=
  ∀ (turns : Nat → Turn) (s : State), readyToRun s → Inv s → s.good → fair turns → (∀ n, turns n ≠ .reset) →
    (∀ n t, runFair turns n s = .next t → admittedTurn t (turns n)) →
    (∀ n, ∃ t, runFair turns n s = .next t ∧ t.good) ∧
    ∀ n, ∃ m t, n ≤ m ∧ runFair turns m s = .next t ∧ t.ph = Ph.lath

/-! ### The timed refinement and the panel -/

/-- The timed refinement (70_reset_and_hazards.md R266, R274): every timed step is a step of the machine, `latlAt` is the
time at which the last LATL completed, which a LATL step sets and no other step changes, and along timed steps LAT is
held at 0 from LATL to LATH for no less than LATCH_DELAY. -/
def Obligations.TimedStepsKeepTheLatchDelay : Prop :=
  (∀ (d : Nat) (x y : Timed), timedStep d x = some y → step x.base = .next y.base ∧ y.now = x.now + d ∧
    (atPhase Ph.latl x.base → y.latlAt = some y.now) ∧ (¬ atPhase Ph.latl x.base → y.latlAt = x.latlAt)) ∧
  (∀ (d : Nat) (x y : Timed), TimedInv x → timedStep d x = some y → TimedInv y) ∧
  (∀ (x : Timed) (d : Nat) (s : State), TimedInv x → step x.base = .next s → x.base.cfg.latchDelay ≤ d →
    ∃ y, timedStep d x = some y ∧ y.base = s)

/-- The panel's display (10_state.md R53): dark while OE is 1; while OE is 0 a lit LED is on the addressed row and
shows a 1 of its half of OLAT. That every other row is dark is presumed by the spec itself, from general knowledge
(93_implementation_defined.md G4; log entry 17). -/
def Obligations.PanelShowsOnlyTheAddressedRow : Prop :=
  ∀ (prm : PanelConfig) (out : OutWord) (p : Panel) (half : Plane) (row : RowIdx) (column : Fin 64),
    (lineOf out .oe = true → ledLit prm out p half row column = false) ∧
    (lineOf out .oe = false → (ledLit prm out p half row column = true ↔
      row = addrOf out ∧ ∃ j : Fin 64, prm.colMap[j] = column ∧ (p.olat[j]).half half = true))

/-- After the 64 pulses of a row the pair clocked at column c stands at SR[63 - c] (10_state.md R51): from the first
DATA of a row with CLK seen low, 192 steps of the sequencer alone leave in a panel that shifts on the rising edge the
decoded pixels of the row, for any earlier contents and any latch mode. The observer's place in a step is the model's
choice (log entry 17). -/
def Obligations.PanelShiftRegisterHoldsTheRow : Prop :=
  ∀ (prm : PanelConfig) (x : System) (b : Bank), prm.clkEdge = .rising → x.panel.prevClk = false →
    x.block.line .clk = false → framesAdmitted x.block.mem → TboInBound x.block.cfg.tbo x.block.mem b →
    x.block.fb = some b → x.block.sched = [] → x.block.ph = Ph.data → x.block.col = 0#6 →
    ∃ y, x.run prm 192 = .next y ∧ y.block.ph = Ph.blank ∧ y.block.row = x.block.row ∧
      ∀ c : Fin 64,
        pixelBit x.block.cfg.tbo x.block.mem b (bitPosUp x.block.row.toNat c) = some (y.panel.sr[63 - c.val]).up ∧
        pixelBit x.block.cfg.tbo x.block.mem b (bitPosLo x.block.row.toNat c) = some (y.panel.sr[63 - c.val]).lo

/-- The row-scan driver displays its Frame: on a panel that shifts and latches on rising edges, one row scan of 198
steps from the first DATA of row r leaves OE = 0, row r addressed, and on each half exactly the LEDs lit whose pixel of
row r in Frame FB is 1, at the physical columns PANEL_COL_MAP gives. That other rows are dark is presumed by the spec
itself (G4), and the observer's place in a step is the model's choice (log entry 17). -/
def Obligations.PanelDisplaysTheScannedRow : Prop :=
  ∀ (prm : PanelConfig) (x : System) (b : Bank), prm.clkEdge = .rising → prm.latMode = .rise →
    x.panel.prevClk = false → x.block.line .clk = false → framesAdmitted x.block.mem →
    TboInBound x.block.cfg.tbo x.block.mem b → x.block.fb = some b → x.block.sched = [] → x.block.ph = Ph.data →
    x.block.col = 0#6 →
    ∃ y, x.run prm 198 = .next y ∧ y.block.line .oe = false ∧ addrOf y.block.out = x.block.row ∧
      ∀ (half : Plane) (row : RowIdx) (column : Fin 64), ledLit prm y.block.out y.panel half row column = true ↔
        row = x.block.row ∧ ∃ c : Fin 64, prm.colMap[63 - c.val] = column ∧
          pixelBit x.block.cfg.tbo x.block.mem b (bitPos half row.toNat c) = some true
end

