-- ==== Sys2Proof/Laws/State.lean ====
section
/-! SUPPORT. One lemma a field for each update of State, so that no proof unfolds one. -/

namespace Sys2Proof.Laws

open Sys2Proof.Machine

/-! ### record -/

@[simp] theorem record_ph (es : List Event) (s : State) : (s.record es).ph = s.ph := rfl
@[simp] theorem record_row (es : List Event) (s : State) : (s.record es).row = s.row := rfl
@[simp] theorem record_col (es : List Event) (s : State) : (s.record es).col = s.col := rfl
@[simp] theorem record_fb (es : List Event) (s : State) : (s.record es).fb = s.fb := rfl
@[simp] theorem record_fault (es : List Event) (s : State) : (s.record es).fault = s.fault := rfl
@[simp] theorem record_fcode (es : List Event) (s : State) : (s.record es).fcode = s.fcode := rfl
@[simp] theorem record_bank (es : List Event) (s : State) : (s.record es).bank = s.bank := rfl
@[simp] theorem record_out (es : List Event) (s : State) : (s.record es).out = s.out := rfl
@[simp] theorem record_mem (es : List Event) (s : State) : (s.record es).mem = s.mem := rfl
@[simp] theorem record_cfg (es : List Event) (s : State) : (s.record es).cfg = s.cfg := rfl
@[simp] theorem record_hist (es : List Event) (s : State) : (s.record es).hist = es :: s.hist := rfl
@[simp] theorem record_sched (es : List Event) (s : State) : (s.record es).sched = s.sched := rfl

/-! ### complete -/

@[simp] theorem complete_ph (rs : List Event) (ws : List (Line × Level)) (s : State) : (s.complete rs ws).ph = s.ph := rfl
@[simp] theorem complete_row (rs : List Event) (ws : List (Line × Level)) (s : State) : (s.complete rs ws).row = s.row := rfl
@[simp] theorem complete_col (rs : List Event) (ws : List (Line × Level)) (s : State) : (s.complete rs ws).col = s.col := rfl
@[simp] theorem complete_fb (rs : List Event) (ws : List (Line × Level)) (s : State) : (s.complete rs ws).fb = s.fb := rfl
@[simp] theorem complete_fault (rs : List Event) (ws : List (Line × Level)) (s : State) : (s.complete rs ws).fault = s.fault := rfl
@[simp] theorem complete_fcode (rs : List Event) (ws : List (Line × Level)) (s : State) : (s.complete rs ws).fcode = s.fcode := rfl
@[simp] theorem complete_bank (rs : List Event) (ws : List (Line × Level)) (s : State) : (s.complete rs ws).bank = s.bank := rfl
@[simp] theorem complete_out (rs : List Event) (ws : List (Line × Level)) (s : State) : (s.complete rs ws).out = setLines s.out ws := rfl
@[simp] theorem complete_mem (rs : List Event) (ws : List (Line × Level)) (s : State) : (s.complete rs ws).mem = s.mem := rfl
@[simp] theorem complete_cfg (rs : List Event) (ws : List (Line × Level)) (s : State) : (s.complete rs ws).cfg = s.cfg := rfl
@[simp] theorem complete_hist (rs : List Event) (ws : List (Line × Level)) (s : State) : (s.complete rs ws).hist = (rs ++ writeEvents ws) :: s.hist := rfl
@[simp] theorem complete_sched (rs : List Event) (ws : List (Line × Level)) (s : State) : (s.complete rs ws).sched = s.sched := rfl

/-! ### setFault -/

@[simp] theorem setFault_ph (c : FaultCode) (s : State) : (s.setFault c).ph = s.ph := rfl
@[simp] theorem setFault_row (c : FaultCode) (s : State) : (s.setFault c).row = s.row := rfl
@[simp] theorem setFault_col (c : FaultCode) (s : State) : (s.setFault c).col = s.col := rfl
@[simp] theorem setFault_fb (c : FaultCode) (s : State) : (s.setFault c).fb = s.fb := rfl
@[simp] theorem setFault_fault (c : FaultCode) (s : State) : (s.setFault c).fault = true := rfl
@[simp] theorem setFault_fcode (c : FaultCode) (s : State) : (s.setFault c).fcode = c.bits := rfl
@[simp] theorem setFault_bank (c : FaultCode) (s : State) : (s.setFault c).bank = s.bank := rfl
@[simp] theorem setFault_out (c : FaultCode) (s : State) : (s.setFault c).out = s.out := rfl
@[simp] theorem setFault_mem (c : FaultCode) (s : State) : (s.setFault c).mem = s.mem := rfl
@[simp] theorem setFault_cfg (c : FaultCode) (s : State) : (s.setFault c).cfg = s.cfg := rfl
@[simp] theorem setFault_hist (c : FaultCode) (s : State) : (s.setFault c).hist = s.hist := rfl
@[simp] theorem setFault_sched (c : FaultCode) (s : State) : (s.setFault c).sched = s.sched := rfl

/-! ### clearFault -/

@[simp] theorem clearFault_ph (s : State) : (s.clearFault).ph = s.ph := rfl
@[simp] theorem clearFault_row (s : State) : (s.clearFault).row = s.row := rfl
@[simp] theorem clearFault_col (s : State) : (s.clearFault).col = s.col := rfl
@[simp] theorem clearFault_fb (s : State) : (s.clearFault).fb = s.fb := rfl
@[simp] theorem clearFault_fault (s : State) : (s.clearFault).fault = false := rfl
@[simp] theorem clearFault_fcode (s : State) : (s.clearFault).fcode = fcodeNone := rfl
@[simp] theorem clearFault_bank (s : State) : (s.clearFault).bank = s.bank := rfl
@[simp] theorem clearFault_out (s : State) : (s.clearFault).out = s.out := rfl
@[simp] theorem clearFault_mem (s : State) : (s.clearFault).mem = s.mem := rfl
@[simp] theorem clearFault_cfg (s : State) : (s.clearFault).cfg = s.cfg := rfl
@[simp] theorem clearFault_hist (s : State) : (s.clearFault).hist = s.hist := rfl
@[simp] theorem clearFault_sched (s : State) : (s.clearFault).sched = s.sched := rfl

/-! ### raiseFault -/

@[simp] theorem raiseFault_ph (c : FaultCode) (i : FaultInfo) (rs : List Event) (s : State) : (raiseFault c i rs s).ph = Ph.fhold := rfl
@[simp] theorem raiseFault_row (c : FaultCode) (i : FaultInfo) (rs : List Event) (s : State) : (raiseFault c i rs s).row = s.row := rfl
@[simp] theorem raiseFault_col (c : FaultCode) (i : FaultInfo) (rs : List Event) (s : State) : (raiseFault c i rs s).col = s.col := rfl
@[simp] theorem raiseFault_fb (c : FaultCode) (i : FaultInfo) (rs : List Event) (s : State) : (raiseFault c i rs s).fb = s.fb := rfl
@[simp] theorem raiseFault_fault (c : FaultCode) (i : FaultInfo) (rs : List Event) (s : State) : (raiseFault c i rs s).fault = true := rfl
@[simp] theorem raiseFault_fcode (c : FaultCode) (i : FaultInfo) (rs : List Event) (s : State) : (raiseFault c i rs s).fcode = c.bits := rfl
@[simp] theorem raiseFault_bank (c : FaultCode) (i : FaultInfo) (rs : List Event) (s : State) : (raiseFault c i rs s).bank = s.bank := rfl
@[simp] theorem raiseFault_out (c : FaultCode) (i : FaultInfo) (rs : List Event) (s : State) : (raiseFault c i rs s).out = s.out := rfl
@[simp] theorem raiseFault_mem (c : FaultCode) (i : FaultInfo) (rs : List Event) (s : State) : (raiseFault c i rs s).mem = s.mem := rfl
@[simp] theorem raiseFault_cfg (c : FaultCode) (i : FaultInfo) (rs : List Event) (s : State) : (raiseFault c i rs s).cfg = s.cfg := rfl
@[simp] theorem raiseFault_hist (c : FaultCode) (i : FaultInfo) (rs : List Event) (s : State) : (raiseFault c i rs s).hist = (rs ++ [Event.fault c s.ph s.row s.col i]) :: s.hist := rfl
@[simp] theorem raiseFault_sched (c : FaultCode) (i : FaultInfo) (rs : List Event) (s : State) : (raiseFault c i rs s).sched = s.sched := rfl

/-! ### bankWrite -/

@[simp] theorem bankWrite_ph (d : Bank) (s : State) : (Machine.bankWrite d s).ph = s.ph := rfl
@[simp] theorem bankWrite_row (d : Bank) (s : State) : (Machine.bankWrite d s).row = s.row := rfl
@[simp] theorem bankWrite_col (d : Bank) (s : State) : (Machine.bankWrite d s).col = s.col := rfl
@[simp] theorem bankWrite_fb (d : Bank) (s : State) : (Machine.bankWrite d s).fb = s.fb := rfl
@[simp] theorem bankWrite_fault (d : Bank) (s : State) : (Machine.bankWrite d s).fault = s.fault := rfl
@[simp] theorem bankWrite_fcode (d : Bank) (s : State) : (Machine.bankWrite d s).fcode = s.fcode := rfl
@[simp] theorem bankWrite_bank (d : Bank) (s : State) : (Machine.bankWrite d s).bank = d := rfl
@[simp] theorem bankWrite_out (d : Bank) (s : State) : (Machine.bankWrite d s).out = s.out := rfl
@[simp] theorem bankWrite_mem (d : Bank) (s : State) : (Machine.bankWrite d s).mem = s.mem := rfl
@[simp] theorem bankWrite_cfg (d : Bank) (s : State) : (Machine.bankWrite d s).cfg = s.cfg := rfl
@[simp] theorem bankWrite_hist (d : Bank) (s : State) : (Machine.bankWrite d s).hist = [Event.bankWrite d] :: s.hist := rfl
@[simp] theorem bankWrite_sched (d : Bank) (s : State) : (Machine.bankWrite d s).sched = s.sched := rfl

/-! ### assertReset -/

@[simp] theorem assertReset_ph (s : State) : (assertReset s).ph = Ph.bsample := rfl
@[simp] theorem assertReset_row (s : State) : (assertReset s).row = 0#4 := rfl
@[simp] theorem assertReset_col (s : State) : (assertReset s).col = 0#6 := rfl
@[simp] theorem assertReset_fb (s : State) : (assertReset s).fb = none := rfl
@[simp] theorem assertReset_fault (s : State) : (assertReset s).fault = false := rfl
@[simp] theorem assertReset_fcode (s : State) : (assertReset s).fcode = fcodeNone := rfl
@[simp] theorem assertReset_bank (s : State) : (assertReset s).bank = 0#2 := rfl
@[simp] theorem assertReset_out (s : State) : (assertReset s).out = resetOut s.cfg.initLevels := rfl
@[simp] theorem assertReset_mem (s : State) : (assertReset s).mem = s.mem := rfl
@[simp] theorem assertReset_cfg (s : State) : (assertReset s).cfg = s.cfg := rfl
@[simp] theorem assertReset_hist (s : State) : (assertReset s).hist = s.hist := rfl
@[simp] theorem assertReset_sched (s : State) : (assertReset s).sched = s.sched := rfl

/-! ### popTurn -/

@[simp] theorem popTurn_ph (s : State) : (s.popTurn).ph = s.ph := rfl
@[simp] theorem popTurn_row (s : State) : (s.popTurn).row = s.row := rfl
@[simp] theorem popTurn_col (s : State) : (s.popTurn).col = s.col := rfl
@[simp] theorem popTurn_fb (s : State) : (s.popTurn).fb = s.fb := rfl
@[simp] theorem popTurn_fault (s : State) : (s.popTurn).fault = s.fault := rfl
@[simp] theorem popTurn_fcode (s : State) : (s.popTurn).fcode = s.fcode := rfl
@[simp] theorem popTurn_bank (s : State) : (s.popTurn).bank = s.bank := rfl
@[simp] theorem popTurn_out (s : State) : (s.popTurn).out = s.out := rfl
@[simp] theorem popTurn_mem (s : State) : (s.popTurn).mem = s.mem := rfl
@[simp] theorem popTurn_cfg (s : State) : (s.popTurn).cfg = s.cfg := rfl
@[simp] theorem popTurn_hist (s : State) : (s.popTurn).hist = s.hist := rfl
@[simp] theorem popTurn_sched (s : State) : (s.popTurn).sched = s.sched.tail := rfl

/-! ### withSeq14 -/

@[simp] theorem withSeq14_ph (s : State) (w : Seq14) : (s.withSeq14 w).ph = w.extractLsb' 10 4 := rfl
@[simp] theorem withSeq14_row (s : State) (w : Seq14) : (s.withSeq14 w).row = w.extractLsb' 6 4 := rfl
@[simp] theorem withSeq14_col (s : State) (w : Seq14) : (s.withSeq14 w).col = w.extractLsb' 0 6 := rfl
@[simp] theorem withSeq14_fb (s : State) (w : Seq14) : (s.withSeq14 w).fb = s.fb := rfl
@[simp] theorem withSeq14_fault (s : State) (w : Seq14) : (s.withSeq14 w).fault = s.fault := rfl
@[simp] theorem withSeq14_fcode (s : State) (w : Seq14) : (s.withSeq14 w).fcode = s.fcode := rfl
@[simp] theorem withSeq14_bank (s : State) (w : Seq14) : (s.withSeq14 w).bank = s.bank := rfl
@[simp] theorem withSeq14_out (s : State) (w : Seq14) : (s.withSeq14 w).out = s.out := rfl
@[simp] theorem withSeq14_mem (s : State) (w : Seq14) : (s.withSeq14 w).mem = s.mem := rfl
@[simp] theorem withSeq14_cfg (s : State) (w : Seq14) : (s.withSeq14 w).cfg = s.cfg := rfl
@[simp] theorem withSeq14_hist (s : State) (w : Seq14) : (s.withSeq14 w).hist = s.hist := rfl
@[simp] theorem withSeq14_sched (s : State) (w : Seq14) : (s.withSeq14 w).sched = s.sched := rfl

/-! ### powerOn -/

@[simp] theorem powerOn_ph (c : Config) (m : Memory) (ts : List Turn) : (powerOn c m ts).ph = Ph.bsample := rfl
@[simp] theorem powerOn_row (c : Config) (m : Memory) (ts : List Turn) : (powerOn c m ts).row = 0#4 := rfl
@[simp] theorem powerOn_col (c : Config) (m : Memory) (ts : List Turn) : (powerOn c m ts).col = 0#6 := rfl
@[simp] theorem powerOn_fb (c : Config) (m : Memory) (ts : List Turn) : (powerOn c m ts).fb = none := rfl
@[simp] theorem powerOn_fault (c : Config) (m : Memory) (ts : List Turn) : (powerOn c m ts).fault = false := rfl
@[simp] theorem powerOn_fcode (c : Config) (m : Memory) (ts : List Turn) : (powerOn c m ts).fcode = fcodeNone := rfl
@[simp] theorem powerOn_bank (c : Config) (m : Memory) (ts : List Turn) : (powerOn c m ts).bank = 0#2 := rfl
@[simp] theorem powerOn_out (c : Config) (m : Memory) (ts : List Turn) : (powerOn c m ts).out = resetOut c.initLevels := rfl
@[simp] theorem powerOn_mem (c : Config) (m : Memory) (ts : List Turn) : (powerOn c m ts).mem = m := rfl
@[simp] theorem powerOn_cfg (c : Config) (m : Memory) (ts : List Turn) : (powerOn c m ts).cfg = c := rfl
@[simp] theorem powerOn_hist (c : Config) (m : Memory) (ts : List Turn) : (powerOn c m ts).hist = [] := rfl
@[simp] theorem powerOn_sched (c : Config) (m : Memory) (ts : List Turn) : (powerOn c m ts).sched = ts := rfl

/-- The reset input gives the reset state of the same parameters, Frame Store and schedule, with the record kept. -/
theorem assertReset_eq_powerOn (s : State) :
    assertReset s = { powerOn s.cfg s.mem s.sched with hist := s.hist } := rfl

/-- State.reset is the reset state of the common configuration. -/
theorem reset_eq_powerOn : State.reset = powerOn Config.common Memory.blank [] := by decide

end Sys2Proof.Laws
end

