-- ==== Sys2Proof/Laws/Ops.lean ====
section
/-! SUPPORT. What the shared operations do: line writes, the Frame Store's cells, FrameRead, and the moves on the
schedule. -/

namespace Sys2Proof.Laws

open Sys2Proof.Machine

/-! ### Output lines -/

theorem bit_lt (l : Line) : l.bit < 14 := by cases l <;> decide

theorem bit_injective {l l' : Line} (h : l.bit = l'.bit) : l = l' := by
  cases l <;> cases l' <;> first | rfl | exact absurd h (by decide)

theorem getLsbD_setLine (o : OutWord) (l : Line) (v : Level) (j : Nat) (hj : j < 14) :
    (setLine o l v).getLsbD j = if j = l.bit then v else o.getLsbD j := by
  have hl := bit_lt l
  unfold setLine
  simp only [BitVec.getLsbD_or, BitVec.getLsbD_and, BitVec.getLsbD_not, BitVec.getLsbD_shiftLeft,
    BitVec.getLsbD_setWidth, BitVec.getLsbD_one, BitVec.getLsbD_ofBool]
  rcases Nat.lt_trichotomy j l.bit with h | h | h
  · simp [h, hj, Nat.ne_of_lt h]
  · subst h; simp [hj]
  · have h1 : ¬ j < l.bit := by omega
    have h2 : j - l.bit ≠ 0 := by omega
    simp [h1, h2, hj, Nat.ne_of_gt h]

/-- A LineWrite sets the line it names and no other. -/
@[simp] theorem lineOf_setLine (o : OutWord) (l l' : Line) (v : Level) :
    lineOf (setLine o l v) l' = if l' = l then v else lineOf o l' := by
  unfold lineOf
  rw [getLsbD_setLine _ _ _ _ (bit_lt l')]
  by_cases h : l' = l
  · simp [h]
  · simp [h, mt bit_injective h]

@[simp] theorem setLines_nil (o : OutWord) : setLines o [] = o := rfl

@[simp] theorem setLines_cons (o : OutWord) (w : Line × Level) (ws : List (Line × Level)) :
    setLines o (w :: ws) = setLines (setLine o w.1 w.2) ws := rfl

/-- Lines that no write of the list names keep their levels. -/
theorem lineOf_setLines_of_notMem (ws : List (Line × Level)) (l : Line) (h : ∀ w ∈ ws, w.1 ≠ l) (o : OutWord) :
    lineOf (setLines o ws) l = lineOf o l := by
  induction ws generalizing o with
  | nil => rfl
  | cons w ws ih =>
    rw [setLines_cons, ih fun x hx => h x (List.mem_cons_of_mem _ hx), lineOf_setLine]
    simp [Ne.symm (h w (List.mem_cons_self))]

/-- The lines after a step that completes. -/
@[simp] theorem line_complete (rs : List Event) (ws : List (Line × Level)) (s : State) (l : Line) :
    (s.complete rs ws).line l = lineOf (setLines s.out ws) l := rfl

@[simp] theorem line_raiseFault (c : FaultCode) (i : FaultInfo) (rs : List Event) (s : State) (l : Line) :
    (raiseFault c i rs s).line l = s.line l := rfl

@[simp] theorem line_bankWrite (d : Bank) (s : State) (l : Line) : (Machine.bankWrite d s).line l = s.line l := rfl

theorem lineOf_out (s : State) (l : Line) : lineOf s.out l = s.line l := rfl

/-- Two output words with the same level on every line are the same word. -/
theorem out_ext {o o' : OutWord} (h : ∀ l, lineOf o l = lineOf o' l) : o = o' := by
  apply BitVec.eq_of_getLsbD_eq
  intro i hi
  have key : ∃ l : Line, l.bit = i := by
    interval_cases i
    exacts [⟨.rUp, rfl⟩, ⟨.gUp, rfl⟩, ⟨.bUp, rfl⟩, ⟨.rLo, rfl⟩, ⟨.gLo, rfl⟩, ⟨.bLo, rfl⟩, ⟨.a, rfl⟩, ⟨.b, rfl⟩,
      ⟨.c, rfl⟩, ⟨.d, rfl⟩, ⟨.clk, rfl⟩, ⟨.lat, rfl⟩, ⟨.oe, rfl⟩, ⟨.aux, rfl⟩]
  obtain ⟨l, rfl⟩ := key
  exact h l

/-- The row address in terms of its lines (30_encoding.md R106). -/
theorem addrOf_eq_iff (o : OutWord) (r : RowIdx) :
    addrOf o = r ↔ lineOf o .a = r.getLsbD 0 ∧ lineOf o .b = r.getLsbD 1 ∧ lineOf o .c = r.getLsbD 2 ∧
      lineOf o .d = r.getLsbD 3 := by
  have hb : ∀ k, k < 4 → (addrOf o).getLsbD k = o.getLsbD (6 + k) := by
    intro k hk; simp [addrOf, hk]
  constructor
  · rintro rfl
    exact ⟨(hb 0 (by omega)).symm, (hb 1 (by omega)).symm, (hb 2 (by omega)).symm, (hb 3 (by omega)).symm⟩
  · rintro ⟨h0, h1, h2, h3⟩
    apply BitVec.eq_of_getLsbD_eq
    intro i hi
    rw [hb i hi]
    interval_cases i
    exacts [h0, h1, h2, h3]

/-- The address lines are read by the row address alone. -/
theorem addrOf_congr {o o' : OutWord} (ha : lineOf o .a = lineOf o' .a) (hb : lineOf o .b = lineOf o' .b)
    (hc : lineOf o .c = lineOf o' .c) (hd : lineOf o .d = lineOf o' .d) : addrOf o = addrOf o' := by
  obtain ⟨h0, h1, h2, h3⟩ := (addrOf_eq_iff o' _).1 rfl
  exact (addrOf_eq_iff o _).2 ⟨ha.trans h0, hb.trans h1, hc.trans h2, hd.trans h3⟩

/-- ADDR's four writes put the row on the address lines. -/
@[simp] theorem addrOf_addrWrites (o : OutWord) (r : RowIdx) : addrOf (setLines o (addrWrites r)) = r := by
  rw [addrOf_eq_iff]; simp [addrWrites]

/-- Writing a driven line leaves the undriven ones low. -/
theorem undriven_setLine {o : OutWord} (h : ∀ l : Line, l.driven = false → lineOf o l = false) (l0 : Line)
    (hl : l0.driven = true) (v : Level) :
    ∀ l : Line, l.driven = false → lineOf (setLine o l0 v) l = false := by
  intro l hd; rw [lineOf_setLine, if_neg, h l hd]; rintro rfl; rw [hl] at hd; nomatch hd

/-- Writing a line that is no address line leaves the row address. -/
theorem addr_setLine {o : OutWord} {l0 : Line} (hl : l0 ≠ .a ∧ l0 ≠ .b ∧ l0 ≠ .c ∧ l0 ≠ .d) (v : Level) :
    addrOf (setLine o l0 v) = addrOf o := by
  apply addrOf_congr <;> rw [lineOf_setLine, if_neg]
  exacts [hl.1.symm, hl.2.1.symm, hl.2.2.1.symm, hl.2.2.2.symm]

/-- The level of each line at reset (70_reset_and_hazards.md R260). -/
theorem lineOf_resetOut (i : InitLevels) (l : Line) :
    lineOf (resetOut i) l =
      match l with
      | .gUp => i.gUp | .gLo => i.gLo | .clk => i.clk | .lat => i.lat | .oe => i.oe
      | .a => i.a | .b => i.b | .c => i.c | .d => i.d
      | .rUp => false | .bUp => false | .rLo => false | .bLo => false | .aux => false := by
  cases l <;> simp [resetOut] <;> rfl

/-! ### The Frame Store's cells -/

theorem cellsWf_mono {lo lo' len : Nat} (h : lo' ≤ lo) : ∀ {cs : List Host.Cell}, cellsWf lo len cs = true →
    cellsWf lo' len cs = true
  | [], _ => rfl
  | (a, v) :: rest, hw => by
    simp only [cellsWf, Bool.and_eq_true, decide_eq_true_eq] at hw ⊢
    exact ⟨⟨⟨by omega, hw.1.1.2⟩, hw.1.2⟩, hw.2⟩

/-- Placing a byte keeps the cells' canonical form. -/
theorem cellsPut_wf {len a : Nat} (v : Byte) (ha : a < len) : ∀ {cs : List Host.Cell} {lo : Nat}, lo ≤ a →
    cellsWf lo len cs = true → cellsWf lo len (cellsPut cs a v) = true
  | [], lo, hlo, _ => by
    unfold cellsPut; split
    · rfl
    · simp [cellsWf, *]
  | (k, w) :: rest, lo, hlo, hw => by
    simp only [cellsWf, Bool.and_eq_true, decide_eq_true_eq] at hw
    obtain ⟨⟨⟨h1, h2⟩, h3⟩, h4⟩ := hw
    unfold cellsPut
    split_ifs with hk hv hk' hv
    · simp [cellsWf, h1, h2, h3, h4]
    · simp only [cellsWf, Bool.and_eq_true, decide_eq_true_eq]
      exact ⟨⟨⟨hlo, ha⟩, hv⟩, ⟨⟨⟨by omega, h2⟩, h3⟩, h4⟩⟩
    · exact cellsWf_mono (by omega) h4
    · subst hk'
      simp [cellsWf, h1, h2, h4, hv]
    · simp only [cellsWf, Bool.and_eq_true, decide_eq_true_eq]
      exact ⟨⟨⟨h1, h2⟩, h3⟩, cellsPut_wf v ha (by omega) h4⟩

/-- Every operation on a Frame keeps its canonical form: placing a byte is the only one that changes it. -/
theorem Frame_put_wf (f : Frame) (a : Nat) (v : Byte) (h : f.wf = true) : (f.put a v).wf = true := by
  unfold Frame.put
  split
  · exact cellsPut_wf v (by assumption) (Nat.zero_le _) h
  · exact h

/-- Every operation on the Frame Store keeps its canonical form. -/
theorem Memory_put_wf (m : Memory) (b : Bank) (a : Nat) (v : Byte) (h : m.wf = true) : (m.put b a v).wf = true := by
  simp only [Memory.wf, Bool.and_eq_true] at h
  obtain ⟨⟨⟨h0, h1⟩, h2⟩, h3⟩ := h
  unfold Memory.put
  split <;> simp [Memory.wf, h0, h1, h2, h3, Frame_put_wf]

/-- Below the first address no cell answers. -/
theorem cellsRead_of_lt {lo len a : Nat} (h : a < lo) : ∀ {cs : List Host.Cell}, cellsWf lo len cs = true →
    cellsRead cs a = unlistedByte
  | [], _ => rfl
  | (k, v) :: rest, hw => by
    simp only [cellsWf, Bool.and_eq_true, decide_eq_true_eq] at hw
    unfold cellsRead
    rw [if_neg (by omega)]
    exact cellsRead_of_lt (by omega) hw.2

/-- Read after write: a placed byte is read at its address, and every other address reads as before. -/
theorem cellsRead_put {len : Nat} (a : Nat) (v : Byte) (a' : Nat) : ∀ {cs : List Host.Cell} {lo : Nat},
    cellsWf lo len cs = true → cellsRead (cellsPut cs a v) a' = if a' = a then v else cellsRead cs a'
  | [], lo, hw => by
    unfold cellsPut; split <;> simp [cellsRead, *, eq_comm]
  | (k, w) :: rest, lo, hw => by
    simp only [cellsWf, Bool.and_eq_true, decide_eq_true_eq] at hw
    have hlow : ∀ x, x ≤ k → cellsRead rest x = unlistedByte := fun x hx => cellsRead_of_lt (by omega : x < k + 1) hw.2
    have ih := cellsRead_put a v a' hw.2
    unfold cellsPut
    by_cases e : a' = a
    · subst e
      rw [if_pos rfl] at ih ⊢
      split_ifs with h1 h2 h3 h4
      · simp only [cellsRead]; rw [if_neg (by omega), hlow _ (by omega), h2]
      · simp only [cellsRead, if_true]
      · rw [hlow _ (by omega), h4]
      · simp only [cellsRead, if_true]
      · simp only [cellsRead]; rw [if_neg (by omega), ih]
    · rw [if_neg e] at ih ⊢
      split_ifs with h1 h2 h3 h4
      · rfl
      · simp only [cellsRead]; rw [if_neg (Ne.symm e)]
      · simp only [cellsRead]; rw [if_neg (by omega)]
      · simp only [cellsRead]; rw [if_neg (Ne.symm e), if_neg (by omega)]
      · simp only [cellsRead, ih]

theorem reset_mem_wf : State.reset.mem.wf = true := by decide

/-! ### FrameRead -/

/-- FrameRead answers the stored byte exactly where it is admitted (20_memory.md R72, R73). -/
theorem frameRead_eq_some_iff {m : Memory} {b : Bank} {a : Int} {v : Byte} :
    frameRead m b a = some v ↔ Admit m b a ∧ readPort m b a.toNat = v := by
  unfold frameRead
  by_cases h : Admit m b a
  · rw [if_pos h]; exact ⟨fun e => ⟨h, Option.some.inj e⟩, fun e => congrArg some e.2⟩
  · rw [if_neg h]; exact ⟨fun e => (nomatch e), fun e => absurd e.1 h⟩

theorem frameRead_eq_none_iff {m : Memory} {b : Bank} {a : Int} : frameRead m b a = none ↔ ¬ Admit m b a := by
  unfold frameRead
  by_cases h : Admit m b a
  · rw [if_pos h]; exact ⟨fun e => (nomatch e), fun e => absurd h e⟩
  · rw [if_neg h]; exact ⟨fun _ => h, fun _ => rfl⟩

/-- The address of a pixel read, and the byte and bit it gives. -/
theorem pixelRead_eq_some_iff {tbo : Int} {m : Memory} {b : Bank} {p : Nat} {r : PixelRead} :
    pixelRead tbo m b p = some r ↔ Admit m b (pixelAddr tbo p) ∧
      r = ⟨b, (pixelAddr tbo p).toNat, readPort m b (pixelAddr tbo p).toNat,
        testBit (readPort m b (pixelAddr tbo p).toNat) (bitOff p)⟩ := by
  unfold pixelRead
  split
  · next v h =>
    obtain ⟨ha, rfl⟩ := frameRead_eq_some_iff.1 h
    constructor
    · intro e; exact ⟨ha, (Option.some.inj e).symm⟩
    · rintro ⟨_, rfl⟩; rfl
  · next h =>
    exact ⟨fun e => (nomatch e), fun e => absurd e.1 (frameRead_eq_none_iff.1 h)⟩

theorem pixelBit_of_read {tbo : Int} {m : Memory} {b : Bank} {p : Nat} {r : PixelRead}
    (h : pixelRead tbo m b p = some r) :
    pixelBit tbo m b p = some r.bit := by
  simp [pixelBit, h]

theorem pixelRead_eq_none_iff {tbo : Int} {m : Memory} {b : Bank} {p : Nat} :
    pixelRead tbo m b p = none ↔ ¬ Admit m b (pixelAddr tbo p) := by
  unfold pixelRead
  split
  · next v h => exact ⟨fun e => (nomatch e), fun e => absurd (frameRead_eq_some_iff.1 h).1 e⟩
  · next h => exact ⟨fun _ => frameRead_eq_none_iff.1 h, fun _ => rfl⟩

/-- What Decode can answer (41_decode.md R136). -/
theorem decodePixels_cases (tbo : Int) (m : Memory) (b : Bank) (r c : Nat) :
    (∃ u l, pixelRead tbo m b (bitPosUp r c) = some u ∧ pixelRead tbo m b (bitPosLo r c) = some l ∧
      decodePixels tbo m b r c = .pair u l) ∨
    (¬ Admit m b (pixelAddr tbo (bitPosUp r c)) ∧
      decodePixels tbo m b r c = .oob [] .up (pixelAddr tbo (bitPosUp r c))) ∨
    (∃ u, pixelRead tbo m b (bitPosUp r c) = some u ∧ ¬ Admit m b (pixelAddr tbo (bitPosLo r c)) ∧
      decodePixels tbo m b r c = .oob [u] .lo (pixelAddr tbo (bitPosLo r c))) := by
  unfold decodePixels
  cases hu : pixelRead tbo m b (bitPosUp r c) with
  | none => exact .inr (.inl ⟨pixelRead_eq_none_iff.1 hu, rfl⟩)
  | some u =>
    cases hl : pixelRead tbo m b (bitPosLo r c) with
    | none => exact .inr (.inr ⟨u, rfl, pixelRead_eq_none_iff.1 hl, rfl⟩)
    | some l => exact .inl ⟨u, l, rfl, rfl, rfl⟩

end Sys2Proof.Laws
end

