-- ==== Sys2Proof/Laws/Exec.lean ====
section
/-! SUPPORT. What each operation and each move can do, said once: the inversion lemmas that proofs cite instead of
unfolding exec, sequencerTurn, bankPortTurn and step. -/

namespace Sys2Proof.Laws

open Sys2Proof.Machine

/-! ### The operations -/

@[simp] theorem exec_clkh (s : State) :
    exec .clkh s = .next (State.complete [] [(.clk, true)] { s with ph := Ph.clkl }) := rfl

@[simp] theorem exec_clkl (s : State) : exec .clkl s = .next (State.complete [] [(.clk, false)]
    { s with col := s.col + 1#6, ph := if s.col = 63#6 then Ph.blank else Ph.data }) := rfl

@[simp] theorem exec_blank (s : State) :
    exec .blank s = .next (State.complete [] [(.oe, true)] { s with ph := Ph.latl }) := rfl

@[simp] theorem exec_latl (s : State) :
    exec .latl s = .next (State.complete [] [(.lat, false)] { s with ph := Ph.lwait }) := rfl

@[simp] theorem exec_lwait (s : State) : exec .lwait s = .next (State.complete [] [] { s with ph := Ph.lath }) := rfl

@[simp] theorem exec_lath (s : State) :
    exec .lath s = .next (State.complete [] [(.lat, true)] { s with ph := Ph.addr }) := rfl

@[simp] theorem exec_addr (s : State) :
    exec .addr s = .next (State.complete [] (addrWrites s.row) { s with ph := Ph.unblank }) := rfl

@[simp] theorem exec_unblank (s : State) : exec .unblank s = .next (State.complete [] [(.oe, false)]
    { s with row := s.row + 1#4, ph := if s.row = 15#4 then Ph.bsample else Ph.data }) := rfl

@[simp] theorem exec_fhold (s : State) : exec .fhold s = .fault .sequencerHalted := rfl

@[simp] theorem exec_bwr (d : Bank) (s : State) : exec (.bwr d) s = .next (Machine.bankWrite d s) := rfl

/-- BSAMPLE never faults: the 2-bit BANK is below NBANKS (42_row_scan.md R161). -/
@[simp] theorem exec_bsample (s : State) : exec .bsample s = .next
    (State.complete [.bankRead s.bank.toNat] [] { s with fb := some s.bank, row := 0#4, col := 0#6, ph := Ph.data }) := by
  have h : ¬ NBANKS ≤ s.bank.toNat := by have := s.bank.isLt; simp only [NBANKS]; omega
  show Host.Outcome.next (sampleBank (bankRead s) s) = _
  unfold sampleBank bankRead
  rw [if_neg h]; simp

/-- What DATA can do (42_row_scan.md R162). -/
theorem execData_cases (s : State) :
    (s.fb = none ∧ exec .data s = .next (raiseFault .phase (.phase s.ph) [] s)) ∨
    (∃ b u l, s.fb = some b ∧
      pixelRead s.cfg.tbo s.mem b (bitPosUp s.row.toNat s.col.toNat) = some u ∧
      pixelRead s.cfg.tbo s.mem b (bitPosLo s.row.toNat s.col.toNat) = some l ∧
      exec .data s = .next (State.complete [u.event, l.event] [(.gUp, u.bit), (.gLo, l.bit)] { s with ph := Ph.clkh })) ∨
    (∃ b, s.fb = some b ∧ ¬ Admit s.mem b (pixelAddr s.cfg.tbo (bitPosUp s.row.toNat s.col.toNat)) ∧
      exec .data s = .next (raiseFault .frameOob
        (.read .up b (pixelAddr s.cfg.tbo (bitPosUp s.row.toNat s.col.toNat))) [] s)) ∨
    (∃ b u, s.fb = some b ∧
      pixelRead s.cfg.tbo s.mem b (bitPosUp s.row.toNat s.col.toNat) = some u ∧
      ¬ Admit s.mem b (pixelAddr s.cfg.tbo (bitPosLo s.row.toNat s.col.toNat)) ∧
      exec .data s = .next (raiseFault .frameOob
        (.read .lo b (pixelAddr s.cfg.tbo (bitPosLo s.row.toNat s.col.toNat))) [u.event] s)) := by
  show _ ∧ execData s = _ ∨ (∃ b u l, _ ∧ _ ∧ _ ∧ execData s = _) ∨ (∃ b, _ ∧ _ ∧ execData s = _) ∨
    ∃ b u, _ ∧ _ ∧ _ ∧ execData s = _
  unfold execData
  cases hb : s.fb with
  | none => exact .inl ⟨rfl, rfl⟩
  | some b =>
    refine .inr ?_
    rcases decodePixels_cases s.cfg.tbo s.mem b s.row.toNat s.col.toNat with
      ⟨u, l, hu, hl, hd⟩ | ⟨hu, hd⟩ | ⟨u, hu, hl, hd⟩
    · exact .inl ⟨b, u, l, rfl, hu, hl, by simp only [hd]⟩
    · exact .inr (.inl ⟨b, rfl, hu, by simp only [hd]; rfl⟩)
    · exact .inr (.inr ⟨b, u, rfl, hu, hl, by simp only [hd]; rfl⟩)

/-! ### The sequencer's move -/

/-- Every PH code is one of the eleven of R100 or reserved. -/
theorem phase_cases (c : PhaseCode) :
    c = Ph.bsample ∨ c = Ph.data ∨ c = Ph.clkh ∨ c = Ph.clkl ∨ c = Ph.blank ∨ c = Ph.latl ∨ c = Ph.lwait ∨
      c = Ph.lath ∨ c = Ph.addr ∨ c = Ph.unblank ∨ c = Ph.fhold ∨ decodePhase c = .error (.reservedPhase c) := by
  revert c; decide

theorem sequencerTurn_of_decode {s : State} {i : Instr} (h : decodePhase s.ph = .ok i) :
    sequencerTurn s = exec i s := by
  simp only [sequencerTurn, decode, h]

theorem sequencerTurn_reserved {s : State} {e : DecodeError} (h : decodePhase s.ph = .error e) :
    sequencerTurn s = .next (raiseFault .phase (.phase s.ph) [] s) := by
  simp only [sequencerTurn, decode, h]; rfl

theorem sequencerTurn_bsample {s : State} (h : s.ph = Ph.bsample) : sequencerTurn s = exec .bsample s :=
  sequencerTurn_of_decode (by rw [h]; rfl)
theorem sequencerTurn_data {s : State} (h : s.ph = Ph.data) : sequencerTurn s = exec .data s :=
  sequencerTurn_of_decode (by rw [h]; rfl)
theorem sequencerTurn_clkh {s : State} (h : s.ph = Ph.clkh) : sequencerTurn s = exec .clkh s :=
  sequencerTurn_of_decode (by rw [h]; rfl)
theorem sequencerTurn_clkl {s : State} (h : s.ph = Ph.clkl) : sequencerTurn s = exec .clkl s :=
  sequencerTurn_of_decode (by rw [h]; rfl)
theorem sequencerTurn_blank {s : State} (h : s.ph = Ph.blank) : sequencerTurn s = exec .blank s :=
  sequencerTurn_of_decode (by rw [h]; rfl)
theorem sequencerTurn_latl {s : State} (h : s.ph = Ph.latl) : sequencerTurn s = exec .latl s :=
  sequencerTurn_of_decode (by rw [h]; rfl)
theorem sequencerTurn_lwait {s : State} (h : s.ph = Ph.lwait) : sequencerTurn s = exec .lwait s :=
  sequencerTurn_of_decode (by rw [h]; rfl)
theorem sequencerTurn_lath {s : State} (h : s.ph = Ph.lath) : sequencerTurn s = exec .lath s :=
  sequencerTurn_of_decode (by rw [h]; rfl)
theorem sequencerTurn_addr {s : State} (h : s.ph = Ph.addr) : sequencerTurn s = exec .addr s :=
  sequencerTurn_of_decode (by rw [h]; rfl)
theorem sequencerTurn_unblank {s : State} (h : s.ph = Ph.unblank) : sequencerTurn s = exec .unblank s :=
  sequencerTurn_of_decode (by rw [h]; rfl)
theorem sequencerTurn_fhold {s : State} (h : s.ph = Ph.fhold) : sequencerTurn s = .fault .sequencerHalted :=
  sequencerTurn_of_decode (by rw [h]; rfl)

/-! ### The bank writer's move -/

theorem portWe_portWord (we : Bool) (d : Bank) : portWe (portWord we d) = we := by revert we d; decide

theorem portWd_portWord (we : Bool) (d : Bank) : portWd (portWord we d) = d := by revert we d; decide

/-- What a word on the bank write port can do. -/
theorem bankPortTurn_eq (w : PortWord) (s : State) :
    bankPortTurn w s = if portWe w = true then
      (if bankWriterEnabled s then
        (if keepsContract w s then .next (Machine.bankWrite (s.bank + 1#2) s) else .fault .bankWriterContract)
        else .fault .bankWriterNotEnabled)
      else .next s := by
  unfold bankPortTurn decode decodePort
  by_cases h : portWe w = true
  · simp only [if_pos h]
    split_ifs with he hk
    · rw [exec_bwr, show portWd w = s.bank + 1#2 from hk]
    · rfl
    · rfl
  · simp only [if_neg h]

/-- PRESS writes (BANK + 1) mod 4 (43_bank_select.md R203). -/
theorem press_eq (s : State) : takeTurn .press s =
    if bankWriterEnabled s then .next (Machine.bankWrite (s.bank + 1#2) s) else .fault .bankWriterNotEnabled := by
  show bankPortTurn (pressWord s) s = _
  have hw : portWe (pressWord s) = true := portWe_portWord _ _
  have hk : keepsContract (pressWord s) s := portWd_portWord _ _
  rw [bankPortTurn_eq, if_pos hw, if_pos hk]

/-- A move of the bank writer that completes writes (BANK + 1) mod 4 and records it, or does nothing. -/
theorem bankPortTurn_next {w : PortWord} {s t : State} (h : bankPortTurn w s = .next t) :
    t = s ∨ t = Machine.bankWrite (s.bank + 1#2) s := by
  rw [bankPortTurn_eq] at h
  split_ifs at h
  · exact .inr (Host.Outcome.next.inj h).symm
  · exact .inl (Host.Outcome.next.inj h).symm

/-! ### The step -/

theorem step_eq (s : State) : Machine.step s =
    if framesAdmitted s.mem then takeTurn s.nextTurn s.popTurn else .refused .undersizedFrame := rfl

/-- A step that answers a next state is a move in an admitted configuration. -/
theorem step_next {s t : State} (h : Machine.step s = .next t) :
    framesAdmitted s.mem ∧ takeTurn s.nextTurn s.popTurn = .next t := by
  rw [step_eq] at h
  split_ifs at h with hm
  exact ⟨hm, h⟩

theorem step_cons {s : State} {t : Turn} {ts : List Turn} (hm : framesAdmitted s.mem) (h : s.sched = t :: ts) :
    Machine.step s = takeTurn t { s with sched := ts } := by
  rw [step_eq, if_pos hm]
  simp [State.nextTurn, State.popTurn, h]

theorem step_empty {s : State} (hm : framesAdmitted s.mem) (h : s.sched = []) :
    Machine.step s = sequencerTurn s := by
  rw [step_eq, if_pos hm]
  have : s.popTurn = s := by cases s; simp_all [State.popTurn]
  rw [this]
  simp [State.nextTurn, h, takeTurn]

end Sys2Proof.Laws
end

