-- ==== Sys2Proof/Laws/PerInstr.lean ====
section
/-! SUPPORT. Families of facts about every instruction as syntax, one lemma a constructor. -/

namespace Sys2Proof.Laws

open Sys2Proof.Machine

/-- The instruction's word is selected by a row of the opcode table that has its mnemonic (30_encoding.md R111). -/
def TableRow.Statement (i : Instr) : Prop := ∃ r ∈ opcodeTable, r.mnemonic = i.mnemonic ∧ r.selects (encode i) = true

theorem TableRow.bsample : TableRow.Statement .bsample := ⟨_, List.mem_cons_self, by decide⟩
theorem TableRow.data : TableRow.Statement .data := ⟨⟨"DATA", .ph4, 0x1, 0xF⟩, by decide, by decide⟩
theorem TableRow.clkh : TableRow.Statement .clkh := ⟨⟨"CLKH", .ph4, 0x2, 0xF⟩, by decide, by decide⟩
theorem TableRow.clkl : TableRow.Statement .clkl := ⟨⟨"CLKL", .ph4, 0x3, 0xF⟩, by decide, by decide⟩
theorem TableRow.blank : TableRow.Statement .blank := ⟨⟨"BLANK", .ph4, 0x4, 0xF⟩, by decide, by decide⟩
theorem TableRow.latl : TableRow.Statement .latl := ⟨⟨"LATL", .ph4, 0x5, 0xF⟩, by decide, by decide⟩
theorem TableRow.lwait : TableRow.Statement .lwait := ⟨⟨"LWAIT", .ph4, 0x6, 0xF⟩, by decide, by decide⟩
theorem TableRow.lath : TableRow.Statement .lath := ⟨⟨"LATH", .ph4, 0x7, 0xF⟩, by decide, by decide⟩
theorem TableRow.addr : TableRow.Statement .addr := ⟨⟨"ADDR", .ph4, 0x8, 0xF⟩, by decide, by decide⟩
theorem TableRow.unblank : TableRow.Statement .unblank := ⟨⟨"UNBLANK", .ph4, 0x9, 0xF⟩, by decide, by decide⟩
theorem TableRow.fhold : TableRow.Statement .fhold := ⟨⟨"FHOLD", .ph4, 0xF, 0xF⟩, by decide, by decide⟩
theorem TableRow.bwr (d : Bank) : TableRow.Statement (.bwr d) :=
  ⟨⟨"BWR", .bport3, 0x4, 0x4⟩, by decide, by revert d; decide⟩

end Sys2Proof.Laws
end

