-- ==== Sys2Proof/Laws/Run.lean ====
section
/-! SUPPORT. Runs, one step at a time: the host's run, the moves of the two agents, and observed runs of the block with
a panel. -/

namespace Sys2Proof.Laws

open Sys2Proof.Machine

/-! ### The host's run -/

theorem run_succ_next {n : Nat} {s t : State} (h : Machine.step s = .next t) :
    Host.Core.run Sys2Proof.core (n+1) s = Host.Core.run Sys2Proof.core n t := by
  have h' : Sys2Proof.core.step s = .next t := h
  simp only [Host.Core.run, h']

theorem run_succ_inv {n : Nat} {s u : State} (h : Host.Core.run Sys2Proof.core (n+1) s = .next u) :
    ∃ t, Machine.step s = .next t ∧ Host.Core.run Sys2Proof.core n t = .next u := by
  have e : ∀ t, Sys2Proof.core.step s = t →
      ∃ t : State, Machine.step s = .next t ∧ Host.Core.run Sys2Proof.core n t = .next u := by
    intro t ht
    simp only [Host.Core.run, ht] at h
    cases t with
    | next t => exact ⟨t, ht, h⟩
    | fault r => nomatch h
    | refused r => nomatch h
  exact e _ rfl

/-! ### The moves of the two agents -/

/-- An admitted move of the bank writer completes: it writes (BANK + 1) mod 4 or does nothing. -/
theorem bankTurn_ok {x : Turn} {s : State} (hx : x ≠ .sequencer) (hr : x ≠ .reset) (ha : admittedTurn s x) :
    ∃ t, takeTurn x s = .next t ∧ (t = s ∨ t = Machine.bankWrite (s.bank + 1#2) s) := by
  cases x with
  | sequencer => exact absurd rfl hx
  | reset => exact absurd rfl hr
  | press => exact ⟨_, by rw [press_eq, if_pos ha], .inr rfl⟩
  | bankPort w =>
    simp only [takeTurn, bankPortTurn_eq]
    by_cases hw : portWe w = true
    · rw [if_pos hw, if_pos (ha hw).1, if_pos (ha hw).2]; exact ⟨_, rfl, .inr rfl⟩
    · rw [if_neg hw]; exact ⟨_, rfl, .inl rfl⟩

/-- Under the bound of 41_decode.md R141 the read of a pixel is admitted. -/
theorem admit_of_bound {tbo : Int} {m : Memory} {b : Bank} (h : TboInBound tbo m b) (pl : Plane) (r : RowIdx)
    (c : ColIdx) : Admit m b (pixelAddr tbo (bitPos pl r.toNat c.toNat)) := by
  have := b.isLt; have := r.isLt; have := c.isLt
  obtain ⟨h1, h2⟩ := h
  unfold Admit pixelAddr byteIdx byteOff
  cases pl <;> simp only [bitPos, bitPosUp, bitPosLo, NBANKS, HDR_OFF] at * <;> omega

/-- What no sequencer step changes (60_exceptions.md R229), and that each records one list of events. -/
theorem seq_next_keeps {s t : State} (h : sequencerTurn s = .next t) :
    t.mem = s.mem ∧ t.cfg = s.cfg ∧ t.bank = s.bank ∧ t.sched = s.sched ∧ (∃ es, t.hist = es :: s.hist) := by
  rcases phase_cases s.ph with e|e|e|e|e|e|e|e|e|e|e|e
  · rw [sequencerTurn_bsample e, exec_bsample] at h; injection h with h; subst h; simp
  · rw [sequencerTurn_data e] at h
    rcases execData_cases s with ⟨_, e⟩ | ⟨b', u, v, hb', _, _, e⟩ | ⟨b', hb', hn, e⟩ | ⟨b', u, hb', _, hn, e⟩ <;>
      rw [e] at h <;> injection h with h <;> subst h <;> simp
  · rw [sequencerTurn_clkh e, exec_clkh] at h; injection h with h; subst h; simp
  · rw [sequencerTurn_clkl e, exec_clkl] at h; injection h with h; subst h; simp
  · rw [sequencerTurn_blank e, exec_blank] at h; injection h with h; subst h; simp
  · rw [sequencerTurn_latl e, exec_latl] at h; injection h with h; subst h; simp
  · rw [sequencerTurn_lwait e, exec_lwait] at h; injection h with h; subst h; simp
  · rw [sequencerTurn_lath e, exec_lath] at h; injection h with h; subst h; simp
  · rw [sequencerTurn_addr e, exec_addr] at h; injection h with h; subst h; simp
  · rw [sequencerTurn_unblank e, exec_unblank] at h; injection h with h; subst h; simp
  · rw [sequencerTurn_fhold e] at h; nomatch h
  · rw [sequencerTurn_reserved e] at h; injection h with h; subst h; simp

/-- What no move of the bank writer changes. -/
theorem bank_turn_keep {x : Turn} {s t : State} (h : takeTurn x s = .next t) (h1 : x ≠ .sequencer)
    (h2 : x ≠ .reset) : t.fb = s.fb ∧ t.position = s.position ∧ t.sched = s.sched ∧ t.mem = s.mem ∧
    t.cfg = s.cfg ∧ t.fault = s.fault ∧ t.fcode = s.fcode ∧ t.out = s.out := by
  cases x with
  | sequencer => exact absurd rfl h1
  | reset => exact absurd rfl h2
  | bankPort w => rcases bankPortTurn_next h with rfl | rfl <;> simp [State.position]
  | press => rcases bankPortTurn_next h with rfl | rfl <;> simp [State.position]

/-! ### Observed runs -/

/-- A step of the sequencer alone, observed. -/
theorem sysStep {prm : PanelConfig} {x : System} {t : State} (hm : framesAdmitted x.block.mem)
    (hs : x.block.sched = []) (h : sequencerTurn x.block = .next t) : x.step prm = .next ⟨t, x.panel.observe prm t.out⟩ := by
  have : Machine.step x.block = .next t := (step_empty hm hs).trans h
  simp only [System.step, this]

theorem sysRun_succ {prm : PanelConfig} {x y : System} {n : Nat} (h : x.step prm = .next y) :
    x.run prm (n + 1) = y.run prm n := by
  simp only [System.run, h]

theorem sysRun_add {prm : PanelConfig} (m : Nat) : ∀ {x y : System} {n : Nat}, x.run prm m = .next y →
    x.run prm (m + n) = y.run prm n := by
  induction m with
  | zero => intro x y n h; injection h with h; subst h; rw [Nat.zero_add]
  | succ m ih =>
    intro x y n h
    rw [show m + 1 + n = (m+n)+1 by omega]
    simp only [System.run] at h ⊢
    cases hx : x.step prm with
    | next z => rw [hx] at h; simp only at h ⊢; exact ih h
    | fault r => rw [hx] at h; nomatch h
    | refused r => rw [hx] at h; nomatch h

end Sys2Proof.Laws
end

