-- ==== Sys2Proof/Laws/Scan.lean ====
section
/-! SUPPORT. The step numbering of 42_row_scan.md R174 (`positionAt`) and how one sequencer step moves along it. -/

namespace Sys2Proof.Laws

open Sys2Proof.Machine

theorem positionAt_frame (f : Nat) : positionAt (3169 * f) = (Ph.bsample, 0#4, 0#6) := by
  have : 3169 * f % 3169 = 0 := by omega
  simp [positionAt, this]

theorem positionAt_column {f r c e : Nat} (hr : r < 16) (hc : c < 64) (he : e < 3) :
    positionAt (3169 * f + 1 + 198 * r + 3 * c + e) = (BitVec.ofNat 4 (1 + e), BitVec.ofNat 4 r, BitVec.ofNat 6 c) := by
  have h0 : (3169 * f + 1 + 198 * r + 3 * c + e) % 3169 = 1 + 198 * r + 3 * c + e := by omega
  have h1 : (1 + 198 * r + 3 * c + e - 1) / 198 = r := by omega
  have h2 : (1 + 198 * r + 3 * c + e - 1) % 198 = 3 * c + e := by omega
  have h3 : (3 * c + e) % 3 = e := by omega
  have h4 : (3 * c + e) / 3 = c := by omega
  simp only [positionAt, h0, h1, h2, h3, h4]
  rw [if_neg (by omega), if_pos (by omega)]

theorem positionAt_rowEnd {f r e : Nat} (hr : r < 16) (he : e < 6) :
    positionAt (3169 * f + 1 + 198 * r + 192 + e) = (BitVec.ofNat 4 (4 + e), BitVec.ofNat 4 r, 0#6) := by
  have h0 : (3169 * f + 1 + 198 * r + 192 + e) % 3169 = 1 + 198 * r + 192 + e := by omega
  have h1 : (1 + 198 * r + 192 + e - 1) / 198 = r := by omega
  have h2 : (1 + 198 * r + 192 + e - 1) % 198 = 192 + e := by omega
  have h3 : 4 + (192 + e - 192) = 4 + e := by omega
  simp only [positionAt, h0, h1, h2, h3]
  rw [if_neg (by omega), if_neg (by omega)]

/-- Every step number is that of a BSAMPLE, of a column's three steps or of a row end's six. -/
theorem stepNumber_cases (k : Nat) :
    (∃ f, k = 3169 * f) ∨ (∃ f r c e, r < 16 ∧ c < 64 ∧ e < 3 ∧ k = 3169 * f + 1 + 198 * r + 3 * c + e) ∨
      ∃ f r e, r < 16 ∧ e < 6 ∧ k = 3169 * f + 1 + 198 * r + 192 + e := by
  by_cases h0 : k % 3169 = 0
  · exact .inl ⟨k / 3169, by omega⟩
  · by_cases h1 : (k % 3169 - 1) % 198 < 192
    · exact .inr (.inl ⟨k / 3169, (k % 3169 - 1) / 198, (k % 3169 - 1) % 198 / 3, (k % 3169 - 1) % 198 % 3,
        by omega, by omega, by omega, by omega⟩)
    · exact .inr (.inr ⟨k / 3169, (k % 3169 - 1) / 198, (k % 3169 - 1) % 198 - 192, by omega, by omega, by omega⟩)

/-- A sequencer step that does not fault moves from one step number to the next (42_row_scan.md R173, R174). -/
theorem position_step {s t : State} {k : Nat} (hs : s.position = positionAt k) (h : sequencerTurn s = .next t)
    (hf : t.ph ≠ Ph.fhold) : t.position = positionAt (k + 1) := by
  rcases stepNumber_cases k with ⟨f, rfl⟩ | ⟨f, r, c, e, hr, hc, he, rfl⟩ | ⟨f, r, e, hr, he, rfl⟩
  · rw [positionAt_frame] at hs
    have hp : s.ph = Ph.bsample := congrArg Prod.fst hs
    rw [sequencerTurn_bsample hp, exec_bsample] at h
    injection h with h; subst h
    have := positionAt_column (f := f) (r := 0) (c := 0) (e := 0) (by omega) (by omega) (by omega)
    rw [show 3169 * f + 1 = 3169 * f + 1 + 198 * 0 + 3 * 0 + 0 by omega, this]
    rfl
  · rw [positionAt_column hr hc he] at hs
    simp only [State.position, Prod.mk.injEq] at hs
    obtain ⟨hp, hrow, hcol⟩ := hs
    have hce : e = 0 ∨ e = 1 ∨ e = 2 := by omega
    rcases hce with rfl | rfl | rfl
    · rw [sequencerTurn_data (s := s) hp] at h
      rw [show 3169 * f + 1 + 198 * r + 3 * c + 0 + 1 = 3169 * f + 1 + 198 * r + 3 * c + 1 by omega,
        positionAt_column hr hc (by omega)]
      rcases execData_cases s with ⟨_, e⟩ | ⟨b, u, l, _, _, _, e⟩ | ⟨b, _, _, e⟩ | ⟨b, u, _, _, _, e⟩ <;>
        rw [e] at h <;> injection h with h <;> subst h
      · exact absurd rfl hf
      · simp [State.position, hrow, hcol]
      · exact absurd rfl hf
      · exact absurd rfl hf
    · rw [sequencerTurn_clkh (s := s) hp, exec_clkh] at h
      injection h with h; subst h
      rw [show 3169 * f + 1 + 198 * r + 3 * c + 1 + 1 = 3169 * f + 1 + 198 * r + 3 * c + 2 by omega,
        positionAt_column hr hc (by omega)]
      simp [State.position, hrow, hcol]
    · rw [sequencerTurn_clkl (s := s) hp, exec_clkl] at h
      injection h with h; subst h
      by_cases h63 : c = 63
      · subst h63
        rw [show 3169 * f + 1 + 198 * r + 3 * 63 + 2 + 1 = 3169 * f + 1 + 198 * r + 192 + 0 by omega,
          positionAt_rowEnd hr (by omega)]
        simp [State.position, hrow, hcol]
      · have h63' : ¬ BitVec.ofNat 6 c = 63#6 := by
          intro hx; have := congrArg BitVec.toNat hx; simp at this; omega
        rw [show 3169 * f + 1 + 198 * r + 3 * c + 2 + 1 = 3169 * f + 1 + 198 * r + 3 * (c + 1) + 0 by omega,
          positionAt_column hr (by omega) (by omega)]
        simp [State.position, hrow, hcol, h63', BitVec.ofNat_add]
  · rw [positionAt_rowEnd hr he] at hs
    simp only [State.position, Prod.mk.injEq] at hs
    obtain ⟨hp, hrow, hcol⟩ := hs
    have hee : e = 0 ∨ e = 1 ∨ e = 2 ∨ e = 3 ∨ e = 4 ∨ e = 5 := by omega
    rcases hee with rfl | rfl | rfl | rfl | rfl | rfl
    · rw [sequencerTurn_blank (s := s) hp, exec_blank] at h
      injection h with h; subst h
      rw [Nat.add_assoc, positionAt_rowEnd hr (by omega)]; simp [State.position, hrow, hcol]
    · rw [sequencerTurn_latl (s := s) hp, exec_latl] at h
      injection h with h; subst h
      rw [Nat.add_assoc, positionAt_rowEnd hr (by omega)]; simp [State.position, hrow, hcol]
    · rw [sequencerTurn_lwait (s := s) hp, exec_lwait] at h
      injection h with h; subst h
      rw [Nat.add_assoc, positionAt_rowEnd hr (by omega)]; simp [State.position, hrow, hcol]
    · rw [sequencerTurn_lath (s := s) hp, exec_lath] at h
      injection h with h; subst h
      rw [Nat.add_assoc, positionAt_rowEnd hr (by omega)]; simp [State.position, hrow, hcol]
    · rw [sequencerTurn_addr (s := s) hp, exec_addr] at h
      injection h with h; subst h
      rw [Nat.add_assoc, positionAt_rowEnd hr (by omega)]; simp [State.position, hrow, hcol]
    · rw [sequencerTurn_unblank (s := s) hp, exec_unblank] at h
      injection h with h; subst h
      by_cases h15 : r = 15
      · subst h15
        rw [show 3169 * f + 1 + 198 * 15 + 192 + 5 + 1 = 3169 * (f + 1) by omega, positionAt_frame]
        simp [State.position, hrow, hcol]
      · have h15' : ¬ BitVec.ofNat 4 r = 15#4 := by
          intro hx; have := congrArg BitVec.toNat hx; simp at this; omega
        rw [show 3169 * f + 1 + 198 * r + 192 + 5 + 1 = 3169 * f + 1 + 198 * (r + 1) + 3 * 0 + 0 by omega,
          positionAt_column (by omega) (by omega) (by omega)]
        simp [State.position, hrow, hcol, h15', BitVec.ofNat_add]

end Sys2Proof.Laws
end

