-- ==== Sys2Proof/Tests/Slice0.lean ====
section
/-! SUPPORT. The model's own tests: the decodings of words written out from 30_encoding.md, the well-formedness checks,
the vectors V1 to V22 of 95_test_vectors.md (each expected value is that file's), and one witness theorem for every
statement with hypotheses. -/

namespace Sys2Proof.Tests

open Sys2Proof.Machine

/-! ### Helpers -/

/-- What a function sees of the next state, or nothing where there is none. -/
def seen {α : Type} (o : Host.Outcome State Fault Refusal) (f : State → α) : Option α :=
  match o with
  | .next t => some (f t)
  | .fault _ => none
  | .refused _ => none

/-- The fault an outcome ends in. -/
def faultOf (o : Host.Outcome State Fault Refusal) : Option Fault :=
  match o with
  | .next _ => none
  | .fault r => some r
  | .refused _ => none

/-- The refusal an outcome ends in. -/
def refusalOf (o : Host.Outcome State Fault Refusal) : Option Refusal :=
  match o with
  | .next _ => none
  | .fault _ => none
  | .refused r => some r

/-- The reset state at a SEQ14 position with FB = 0: the common configuration of 95_test_vectors.md. -/
def at14 (w : Seq14) : State := { State.reset.withSeq14 w with fb := some 0#2 }

/-- A state with the given cells in Frame 0. -/
def withCells (cs : List Host.Cell) (s : State) : State :=
  { s with mem := { s.mem with f0 := { len := 315, cells := cs } } }

/-- A state with another TBO. -/
def withTbo (t : Int) (s : State) : State := { s with cfg := { s.cfg with tbo := t } }

/-- A state with some lines at given levels. -/
def withLines (ws : List (Line × Level)) (s : State) : State := { s with out := setLines s.out ws }

/-- A state with COOP_SCHED = true. -/
def withCoop (s : State) : State := { s with cfg := { s.cfg with coopSched := true } }

/-- A state after a FRAME_OOB fault. -/
def halted : State := { State.reset with ph := 0xF#4, fault := true, fcode := 2#2, fb := some 0#2 }

/-- A state whose Frame 2 is `n` bytes long and empty. -/
def shortFrames (n : Nat) (s : State) : State := { s with mem := { s.mem with f2 := { len := n, cells := [] } } }

/-! ### Decoding (30_encoding.md R100, R108, R110, R111) -/

theorem test_decode_bsample : decode (.ph4 0b0000#4) = .ok .bsample := by decide
theorem test_decode_data : decode (.ph4 0b0001#4) = .ok .data := by decide
theorem test_decode_clkh : decode (.ph4 0b0010#4) = .ok .clkh := by decide
theorem test_decode_clkl : decode (.ph4 0b0011#4) = .ok .clkl := by decide
theorem test_decode_blank : decode (.ph4 0b0100#4) = .ok .blank := by decide
theorem test_decode_latl : decode (.ph4 0b0101#4) = .ok .latl := by decide
theorem test_decode_lwait : decode (.ph4 0b0110#4) = .ok .lwait := by decide
theorem test_decode_lath : decode (.ph4 0b0111#4) = .ok .lath := by decide
theorem test_decode_addr : decode (.ph4 0b1000#4) = .ok .addr := by decide
theorem test_decode_unblank : decode (.ph4 0b1001#4) = .ok .unblank := by decide
theorem test_decode_fhold : decode (.ph4 0b1111#4) = .ok .fhold := by decide
theorem test_decode_bwr : decode (.bport3 0b100#3) = .ok (.bwr 0#2) ∧ decode (.bport3 0b101#3) = .ok (.bwr 1#2) ∧
    decode (.bport3 0b110#3) = .ok (.bwr 2#2) ∧ decode (.bport3 0b111#3) = .ok (.bwr 3#2) := by decide
theorem test_decode_reserved : decode (.ph4 0b1010#4) = .error (.reservedPhase 0xA#4) ∧
    decode (.ph4 0b1110#4) = .error (.reservedPhase 0xE#4) := by decide
theorem test_decode_no_write : decode (.bport3 0b000#3) = .error (.noWrite 0#3) ∧
    decode (.bport3 0b011#3) = .error (.noWrite 3#3) := by decide
theorem test_decode_byte : decodeByte .ph4 0x09#8 = .ok .unblank ∧ decodeByte .bport3 0x06#8 = .ok (.bwr 2#2) ∧
    decodeByte .ph4 0x19#8 = .error (.strayBits .ph4 0x19#8) ∧
    decodeByte .bport3 0x0E#8 = .error (.strayBits .bport3 0x0E#8) := by decide
theorem test_encode_words : encode .unblank = .ph4 9#4 ∧ encode .fhold = .ph4 15#4 ∧ encode (.bwr 3#2) = .bport3 7#3 := by
  decide
theorem test_table_words : decodeTableWord 8 0x0 = some .bsample ∧ decodeTableWord 8 0x9 = some .unblank ∧
    decodeTableWord 8 0xF = some .fhold ∧ decodeTableWord 8 0xB = none ∧ decodeTableWord 3 0x6 = some (.bwr 2#2) ∧
    decodeTableWord 3 0x3 = none := by decide
theorem test_table_row_of_bwr : (opcodeTable.filter fun r => r.selects (.bport3 0b110#3)).map OpRow.mnemonic = ["BWR"] := by
  decide

/-! ### Well-formedness -/

theorem test_wf_instructions : ([.bsample, .data, .clkh, .clkl, .blank, .latl, .lwait, .lath, .addr, .unblank, .fhold,
    .bwr 3#2] : List Instr).all Instr.wellFormed = true := by decide
theorem test_wf_frame : Frame.wf { len := 315, cells := [(59, 1#8), (314, 0xA5#8)] } = true := by decide
theorem test_wf_refuses_unsorted : Frame.wf { len := 315, cells := [(314, 1#8), (59, 1#8)] } = false := by decide
theorem test_wf_refuses_repeated : Frame.wf { len := 315, cells := [(59, 1#8), (59, 2#8)] } = false := by decide
theorem test_wf_refuses_default_byte : Frame.wf { len := 315, cells := [(59, 0#8)] } = false := by decide
theorem test_wf_refuses_outside : Frame.wf { len := 315, cells := [(315, 1#8)] } = false := by decide
theorem test_wf_refuses_store : Memory.wf { Memory.blank with f3 := { len := 315, cells := [(59, 0#8)] } } = false := by
  decide

/-! ### Decode vectors V1 to V4 -/

theorem test_v1_addresses : pixelAddr 255 (bitPosUp 1 9) = 305 ∧ pixelAddr 255 (bitPosLo 1 9) = 297 ∧
    pixelAddr 255 (bitPosUp 15 63) = 187 ∧ pixelAddr 255 (bitPosLo 15 63) = 67 ∧ bitOff (bitPosLo 15 63) = 7 := by decide
theorem test_v2_pixel_bit : testBit 0x01#8 0 = true ∧ testBit 0x01#8 1 = false ∧ testBit 0x80#8 7 = true ∧
    testBit 0x7F#8 7 = false ∧ testBit 0x02#8 1 = true ∧ (List.map (testBit 0xA5#8) [0, 1, 2, 5, 7]) =
    [true, false, true, true, true] := by decide
theorem test_v3_pair : pixelBit 255 (withCells [(306, 0xA5#8)] State.reset).mem 0#2 (bitPosUp 1 2) = some true ∧
    pixelBit 255 (withCells [(306, 0xA5#8)] State.reset).mem 0#2 (bitPosUp 1 1) = some false := by decide
theorem test_v4_refused : refusalOf (Machine.step (shortFrames 314 State.reset)) = some .undersizedFrame ∧
    refusalOf (Machine.step (shortFrames 315 State.reset)) = none := by decide

/-! ### Micro-operations V5 to V14 -/

theorem test_v5_bsample : seen (exec .bsample { State.reset with bank := 2#2 })
    (fun t => (t.seq14, t.fb, t.hist)) = some (0x0400#14, some 2#2, [[.bankRead 2]]) := by decide
theorem test_v5b_bsample : seen (exec .bsample { at14 0x0000#14 with fb := some 3#2 }) (fun t => (t.seq14, t.fb)) =
    some (0x0400#14, some 0#2) := by decide
theorem test_v6_data : seen (exec .data (withCells [(305, 0x02#8)] (at14 0x0449#14)))
    (fun t => (t.seq14, t.line .gUp, t.line .gLo, t.hist)) =
    some (0x0849#14, true, false, [[.frameRead 0#2 305 0x02#8, .frameRead 0#2 297 0x00#8, .lineWrite .gUp true,
      .lineWrite .gLo false]]) := by decide
theorem test_v6b_data : seen (exec .data (withCells [(314, 0x01#8)] (at14 0x0400#14)))
    (fun t => (t.seq14, t.line .gUp, t.line .gLo)) = some (0x0800#14, true, true) := by decide
theorem test_v7_clkh : seen (exec .clkh (at14 0x0849#14)) (fun t => (t.seq14, t.line .clk)) =
    some (0x0C49#14, true) := by decide
theorem test_v8_clkl : seen (exec .clkl (withLines [(.clk, true)] (at14 0x0C49#14))) (fun t => (t.seq14, t.line .clk)) =
    some (0x044A#14, false) := by decide
theorem test_v8b_clkl : seen (exec .clkl (at14 0x0C7F#14)) (fun t => (t.seq14, t.line .clk)) =
    some (0x1040#14, false) := by decide
theorem test_v9_blank : seen (exec .blank (at14 0x1040#14)) (fun t => (t.seq14, t.line .oe)) =
    some (0x1440#14, true) := by decide
theorem test_v10_latl : seen (exec .latl (withLines [(.lat, true)] (at14 0x1440#14))) (fun t => (t.seq14, t.line .lat)) =
    some (0x1840#14, false) := by decide
theorem test_v11_lwait : seen (exec .lwait (at14 0x1840#14)) (fun t => (t.seq14, t.out, t.hist)) =
    some (0x1C40#14, 0#14, [[]]) := by decide
theorem test_v11b_lath : seen (exec .lath (at14 0x1C40#14)) (fun t => (t.seq14, t.line .lat)) =
    some (0x2040#14, true) := by decide
theorem test_v12_addr : seen (exec .addr (at14 0x2040#14))
    (fun t => (t.seq14, t.line .a, t.line .b, t.line .c, t.line .d)) = some (0x2440#14, true, false, false, false) := by
  decide
theorem test_v12b_addr : seen (exec .addr (at14 0x2280#14))
    (fun t => (t.seq14, t.line .a, t.line .b, t.line .c, t.line .d)) = some (0x2680#14, false, true, false, true) := by
  decide
theorem test_v13_unblank : seen (exec .unblank (withLines [(.oe, true)] (at14 0x2440#14)))
    (fun t => (t.seq14, t.line .oe)) = some (0x0480#14, false) := by decide
theorem test_v13b_unblank : seen (exec .unblank (withLines [(.oe, true)] (at14 0x27C0#14)))
    (fun t => (t.seq14, t.line .oe)) = some (0x0000#14, false) := by decide
theorem test_v14_reserved : seen (sequencerTurn (at14 0x2840#14)) (fun t => (t.seq14, t.fault, t.fcode)) =
    some (0x3C40#14, true, 3#2) := by decide
theorem test_v14b_fhold : faultOf (Machine.step halted) = some .sequencerHalted := by decide

/-! ### Bank operations V15 to V17 -/

theorem test_v15_press : seen (takeTurn .press State.reset) (fun t => (t.bank, t.fb, t.hist)) =
    some (1#2, none, [[.bankWrite 1#2]]) := by decide
theorem test_v15b_press_wraps : seen (takeTurn .press { State.reset with bank := 3#2 }) (fun t => t.bank) =
    some 0#2 := by decide
theorem test_v15c_bwr : seen (exec (.bwr 2#2) { State.reset with bank := 1#2 }) (fun t => (t.bank, t.hist)) =
    some (2#2, [[.bankWrite 2#2]]) := by decide
theorem test_v16_no_operation : seen (takeTurn (.bankPort 0b011#3) { State.reset with bank := 2#2 })
    (fun t => (t.bank, t.hist)) = some (2#2, []) := by decide
theorem test_v17_bank_read : seen (exec .bsample { State.reset with bank := 3#2 }) (fun t => (t.bank, t.fb, t.hist)) =
    some (3#2, some 3#2, [[.bankRead 3]]) := by decide
theorem test_write_outside_contract : faultOf (takeTurn (.bankPort 0b110#3) State.reset) = some .bankWriterContract ∧
    seen (takeTurn (.bankPort 0b110#3) { State.reset with bank := 1#2 }) (fun t => t.bank) = some 2#2 := by decide
theorem test_coop_write_outside_lwait : faultOf (takeTurn .press (withCoop (at14 0x0800#14))) =
    some .bankWriterNotEnabled ∧ seen (takeTurn .press (withCoop (at14 0x1800#14))) (fun t => t.bank) = some 1#2 := by
  decide

/-! ### Faults V18 to V21 and reset V22 -/

theorem test_v18_lower_oob : seen (exec .data (withTbo 246 (at14 0x07F8#14))) (fun t => (t.seq14, t.fault, t.fcode, t.hist)) =
    some (0x3FF8#14, true, 2#2, [[.frameRead 0#2 178 0#8, .fault .frameOob 1#4 15#4 56#6 (.read .lo 0#2 58)]]) := by
  decide
theorem test_v19_upper_oob : seen (exec .data (withTbo 256 (at14 0x0400#14))) (fun t => (t.seq14, t.fcode, t.hist)) =
    some (0x3C00#14, 2#2, [[.fault .frameOob 1#4 0#4 0#6 (.read .up 0#2 315)]]) := by decide
theorem test_v20_unwritten_bank : seen (exec .data { at14 0x0400#14 with fb := none })
    (fun t => (t.seq14, t.fault, t.fcode)) = some (0x3C00#14, true, 3#2) := by decide
theorem test_v21_bank_range : (sampleBank 5 (at14 0x0000#14)).seq14 = 0x3C00#14 ∧
    (sampleBank 5 (at14 0x0000#14)).fcode = 1#2 ∧ (sampleBank 5 (at14 0x0000#14)).fb = some 0#2 := by decide
theorem test_v22_reset : seen (takeTurn .reset { halted with bank := 3#2, fb := some 2#2, out := 0x3FFF#14 })
    (fun t => (t.seq14, t.fb, t.fault, t.fcode, t.bank, t.out)) =
    some (0x0000#14, none, false, 0#2, 0#2, 0#14) := by decide

/-! ### Steps, placement and the trace syntax -/

theorem test_withFetchWord : seen (Machine.step (State.reset.withFetchWord 8 0x8)) (fun t => (t.ph, t.sched)) =
    some (9#4, []) ∧ seen (Machine.step (State.reset.withFetchWord 3 0x6)) (fun t => (t.bank, t.ph)) =
    some (2#2, 0#4) := by decide
theorem test_trace_addr : traceLine .addr (at14 0x2280#14) =
    ⟨"ADDR", [("r", 10)], [("A", 0), ("B", 1), ("C", 0), ("D", 1)]⟩ := by decide
theorem test_trace_data : traceLine .data (withCells [(305, 0x02#8)] (at14 0x0449#14)) =
    ⟨"DATA", [("r", 1), ("c", 9)], [("G_UP", 1), ("G_LO", 0)]⟩ := by decide

/-! ### Witnesses: for each statement with hypotheses, a state and operands that meet them

A statement whose hypotheses stand in several clauses has one conjunct a clause, at a boundary value of its range. -/

/-- A machine that answers a next state. -/
abbrev runs (o : Host.Outcome State Fault Refusal) : Prop := seen o (fun _ => ()) = some ()

/-- `runs` says that there is a next state. -/
theorem exists_next_of_runs {o : Host.Outcome State Fault Refusal} (h : runs o) : ∃ t, o = .next t := by
  cases o with
  | next t => exact ⟨t, rfl⟩
  | fault r => exact absurd h (by simp [runs, seen])
  | refused r => exact absurd h (by simp [runs, seen])

/-- CLKL of row 1, column 9, its clock high and its data lines at the decoded pair. -/
def mid : State :=
  withLines [(.gUp, true), (.clk, true), (.lat, true)] (withCells [(305, 0x02#8)] (at14 0x0C49#14))

theorem witness_DecodeEncodeRoundTrip : (Instr.bwr 3#2).wellFormed = true ∧ decode (.bport3 7#3) = .ok (.bwr 3#2) ∧
    decodeByte .ph4 0x0F#8 = .ok .fhold := by decide

theorem witness_DecoderAgreesWithOpcodeTable : decode (.ph4 0xF#4) = .ok .fhold ∧ Instr.mnemonic .fhold = "FHOLD" ∧
    (∃ r ∈ opcodeTable, r.selects (.ph4 0xF#4) = true ∧ r.mnemonic = "FHOLD") ∧
    (∃ r ∈ opcodeTable, r.selects (.bport3 4#3) = true ∧ r.mnemonic = "BWR") := by decide

theorem witness_ReservedWordsSelectNothing : 0xA ≤ (at14 0x2840#14).ph.toNat ∧ (at14 0x2840#14).ph.toNat ≤ 0xE ∧
    0xA ≤ (at14 0x3840#14).ph.toNat ∧ (at14 0x3840#14).ph.toNat ≤ 0xE ∧ runs (sequencerTurn (at14 0x2840#14)) := by decide

theorem witness_BsampleSamplesTheBank : NBANKS ≤ 4 ∧ (at14 0x27C0#14).row = 15#4 ∧
    runs (exec .unblank (at14 0x27C0#14)) ∧ runs (exec (.bwr 3#2) State.reset) := by decide

theorem witness_DataDrivesTheDecodedPair : (withTbo 247 (at14 0x07FF#14)).fb = some 0#2 ∧
    TboInBound 247 (at14 0x07FF#14).mem 0#2 ∧ TboInBound 255 (at14 0x07FF#14).mem 0#2 ∧ (at14 0x0400#14).row = 0#4 := by
  decide

theorem witness_DataTakesItsFaultsInOrder : State.reset.fb = none ∧ (at14 0x0400#14).fb = some 0#2 ∧
    ¬ Admit Memory.blank 0#2 (pixelAddr 256 (bitPosUp 0 0)) ∧ ¬ Admit Memory.blank 0#2 (pixelAddr 126 (bitPosUp 15 56)) ∧
    (Admit Memory.blank 0#2 (pixelAddr 246 (bitPosUp 15 56)) ∧ ¬ Admit Memory.blank 0#2 (pixelAddr 246 (bitPosLo 15 56))) := by
  decide

theorem witness_SingleLineStepsDriveTheirLine : (Instr.lath, 0x7#4, Line.lat, true, 0x8#4) ∈
    [(Instr.clkh, 0x2#4, Line.clk, true, 0x3#4), (.blank, 0x4#4, .oe, true, 0x5#4),
     (.latl, 0x5#4, .lat, false, 0x6#4), (.lath, 0x7#4, .lat, true, 0x8#4)] := by decide

theorem witness_ClklAdvancesTheColumn : (at14 0x0C7F#14).col.toNat = 63 ∧ (at14 0x0C7E#14).col.toNat ≠ 63 := by decide

theorem witness_UnblankAdvancesTheRow : (at14 0x27C0#14).row.toNat = 15 ∧ (at14 0x2780#14).row.toNat ≠ 15 := by decide

theorem witness_FholdHasNoStep : halted.ph = 0xF#4 ∧ halted.cfg.coopSched = false ∧ (withCoop halted).ph = 0xF#4 ∧
    (withCoop halted).cfg.coopSched = true ∧ Turn.press ≠ .reset ∧ runs (takeTurn .press halted) := by decide

theorem witness_BwrWritesTheBank : ∃ t t', exec (.bwr 1#2) State.reset = .next t ∧ exec (.bwr 2#2) t = .next t' :=
  ⟨_, _, rfl, rfl⟩

theorem witness_OperationsKeepWhatTheyDoNotName :
    seen (exec .clkh (at14 0x0849#14)) (fun t => decide (t.line .clk ≠ (at14 0x0849#14).line .clk)) = some true ∧
    seen (exec .lath (at14 0x1C40#14)) (fun t => decide (t.line .lat ≠ (at14 0x1C40#14).line .lat)) = some true ∧
    seen (exec .blank (at14 0x1040#14)) (fun t => decide (t.line .oe ≠ (at14 0x1040#14).line .oe)) = some true ∧
    seen (exec .addr (at14 0x2040#14)) (fun t => decide (addrOf t.out ≠ addrOf (at14 0x2040#14).out)) = some true ∧
    seen (exec .data (withCells [(314, 1#8)] (at14 0x0400#14)))
      (fun t => decide (t.line .gUp ≠ (at14 0x0400#14).line .gUp)) = some true ∧
    seen (exec .bsample { at14 0x0041#14 with bank := 1#2 })
      (fun t => decide (t.fb ≠ some 0#2 ∧ t.row ≠ 1#4 ∧ t.col ≠ 1#6)) = some true ∧
    seen (exec (.bwr 3#2) State.reset) (fun t => decide (t.bank ≠ State.reset.bank)) = some true ∧
    seen (exec .data (withTbo 246 (at14 0x07F8#14))) (fun t => decide (t.fault ≠ false ∧ t.fcode ≠ 0#2)) = some true := by
  decide

theorem witness_SuccessorTable : (at14 0x0000#14).ph = Ph.bsample ∧ ((at14 0x0400#14).ph = Ph.data ∧
    (at14 0x0400#14).fb = some 0#2 ∧ Admit Memory.blank 0#2 (pixelAddr 255 (bitPos .up 0 0)) ∧
    Admit Memory.blank 0#2 (pixelAddr 255 (bitPos .lo 0 0))) ∧ (at14 0x0849#14).ph = Ph.clkh ∧
    ((at14 0x0C7E#14).ph = Ph.clkl ∧ (at14 0x0C7E#14).col.toNat < 63) ∧
    ((at14 0x0C7F#14).ph = Ph.clkl ∧ (at14 0x0C7F#14).col.toNat = 63) ∧ (at14 0x1040#14).ph = Ph.blank ∧
    ((at14 0x2780#14).ph = Ph.unblank ∧ (at14 0x2780#14).row.toNat < 15) ∧
    ((at14 0x27C0#14).ph = Ph.unblank ∧ (at14 0x27C0#14).row.toNat = 15) ∧ halted.ph = Ph.fhold ∧
    seen (sequencerTurn (withTbo 246 (at14 0x07F8#14))) (fun t => t.ph) = some Ph.fhold := by decide

/-- The reset state with a schedule of both agents' moves. -/
def scheduled : State := { State.reset with sched := [.sequencer, .press, .sequencer, .bankPort 3#3, .bankPort 6#3] }

/-- The reset state with COOP_SCHED = true and a PRESS in the LWAIT of row 0: P5 of 95_test_vectors.md, its first press. -/
def cooperative : State :=
  { withCoop State.reset with sched := List.replicate 195 .sequencer ++ [.press, .bankPort 6#3, .sequencer] }

theorem witness_ScanPositionCountsSequencerMoves : (readyToRun scheduled ∧ scheduled.good ∧
    scheduled.position = (Ph.bsample, 0#4, 0#6) ∧
    admittedFrom scheduled.cfg.coopSched 0 scheduled.bank scheduled.sched = true) ∧
    (readyToRun cooperative ∧ cooperative.good ∧ cooperative.position = (Ph.bsample, 0#4, 0#6) ∧
      cooperative.cfg.coopSched = true ∧
      admittedFrom cooperative.cfg.coopSched 0 cooperative.bank cooperative.sched = true) := by decide +kernel

theorem witness_RowEndBlanksLatchesAddressesUnblanks : framesAdmitted (at14 0x1040#14).mem ∧ (at14 0x1040#14).sched = [] ∧
    (at14 0x1040#14).ph = Ph.blank := by decide

/-- A short schedule: the run at the bound of 3168 sequencer moves is too long for a test. -/
theorem witness_BankIsSampledOncePerFrame : (runs (Machine.step (at14 0x0849#14)) ∧
    (at14 0x0849#14).nextTurn ≠ .reset ∧ (at14 0x0849#14).ph ≠ Ph.bsample) ∧
    (scheduled.position = (Ph.bsample, 0#4, 0#6) ∧ noReset scheduled.sched.tail ∧
      scheduled.sched.tail.count .sequencer ≤ 3168 ∧ runs (Host.Core.run Sys2Proof.core 5 scheduled)) := by decide

/-- A clause of the statement for each line, at the last step number it speaks of. -/
theorem witness_LinesKeepInitLevelsUntilFirstWrite :
    ∀ k ∈ [1, 2, 193, 194, 197], runs (Host.Core.run Sys2Proof.core k (powerOn Config.common Memory.blank [])) := by
  decide +kernel

theorem witness_PixelAddressClosedForms : 15 < 16 ∧ 63 < 64 := by decide

theorem witness_ByteOffsetsOfAFrame : byteOff (bitPos .up 15 63) = 127 ∧ byteOff (bitPos .lo 15 63) = 247 := by decide

theorem witness_PositionsAreDistinctWithinAPlane : bitPos .lo 15 63 = bitPos .lo 15 63 ∧ bitPosUp 14 63 = bitPosLo 7 63 := by
  decide

theorem witness_TboBoundIsExact : (at14 0x0400#14).fb = some 0#2 ∧ framesAdmitted Memory.blank ∧ TboInBound 247 Memory.blank 3#2 ∧
    TboInBound 255 Memory.blank 3#2 ∧ ¬ TboInBound 246 Memory.blank 3#2 ∧ ¬ TboInBound 256 Memory.blank 3#2 := by decide

theorem witness_DecodeReadsTheStreamInReverse : Admit Memory.blank 3#2 (pixelAddr 255 0) ∧
    Admit Memory.blank 3#2 (pixelAddr 247 1983) := by decide

theorem witness_FrameReadAdmitsThePixelRegion : ((59 : Int) ≤ 59 ∧ (59 : Int) ≤ (Memory.blank.frame 3#2).len - 1) ∧
    (314 : Int) ≤ (Memory.blank.frame 3#2).len - 1 ∧ (58 : Int) < 59 ∧ ((Memory.blank.frame 3#2).len : Int) ≤ 315 := by decide

theorem witness_PlacedByteIsReadBack : Memory.blank.wf = true ∧ 314 < (Memory.blank.frame 2#2).len ∧
    ((3#2 : Bank) ≠ 2#2 ∨ (314 : Nat) ≠ 314) ∧ ((2#2 : Bank) ≠ 2#2 ∨ (0 : Nat) ≠ 314) := by decide

theorem witness_CanonicalStoresWithEqualBytesAreEqual :
    mid.mem.wf = true ∧ (Memory.blank.put 0#2 305 0x02#8).wf = true ∧
    (∀ b : Bank, (mid.mem.frame b).len = ((Memory.blank.put 0#2 305 0x02#8).frame b).len) ∧
    (∀ (b : Bank) (a : Nat), a < (mid.mem.frame b).len →
      readPort mid.mem b a = readPort (Memory.blank.put 0#2 305 0x02#8) b a) :=
  ⟨by decide, by decide, by decide, fun _ _ _ => rfl⟩

theorem witness_OnlyResetClearsAFault : halted.ph = Ph.fhold ∧ halted.fault = true ∧
    runs (Machine.step { halted with sched := [.press] }) ∧ ({ halted with sched := [.press] } : State).nextTurn ≠ .reset := by
  decide

theorem witness_UndersizedFrameIsRefused : ((shortFrames 314 State.reset).mem.frame 2#2).len < 315 ∧
    ∀ b : Bank, 315 ≤ ((shortFrames 315 State.reset).mem.frame b).len := by decide

theorem witness_BankWriterMovesWhereTheScheduleAdmitsIt : framesAdmitted Memory.blank ∧
    ({ State.reset with sched := [.press] } : State).sched = .press :: [] ∧
    ({ State.reset with sched := [.bankPort 5#3] } : State).sched = .bankPort (portWord true (State.reset.bank + 1#2)) :: [] ∧
    State.reset.cfg.coopSched = false ∧ (withCoop (at14 0x1840#14)).ph = Ph.lwait ∧
    ((withCoop (at14 0x1C40#14)).cfg.coopSched = true ∧ (withCoop (at14 0x1C40#14)).ph ≠ Ph.lwait) ∧
    (∃ d, ({ State.reset with sched := [.bankPort 7#3] } : State).sched = .bankPort (portWord true d) :: []) := by decide

theorem witness_BankWriterHasNoMoveButPress : (runs (Machine.step { State.reset with bank := 3#2, sched := [.press] }) ∧
      ({ State.reset with bank := 3#2, sched := [.press] } : State).nextTurn ≠ .reset) ∧
    ({ State.reset with sched := [.bankPort 5#3] } : State).sched = .bankPort (portWord true (State.reset.bank + 1#2)) :: [] ∧
    ((0#2 : Bank) ≠ State.reset.bank + 1#2 ∧ (2#2 : Bank) ≠ State.reset.bank + 1#2 ∧ bankWriterEnabled State.reset ∧
      bankWriterEnabled (withCoop (at14 0x1840#14))) ∧
    (Turn.bankPort 3#3 ≠ .sequencer ∧ admittedTurn State.reset (.bankPort 3#3) ∧ admittedTurn State.reset (.bankPort 5#3) ∧
      ¬ admittedTurn State.reset (.bankPort 7#3) ∧ ¬ admittedTurn (withCoop State.reset) .press) := by decide

/-- UNBLANK of row 15, with OE = 1, LAT = 1 and the address lines at 15. -/
def frameEnd : State := withLines [(.oe, true), (.lat, true), (.a, true), (.b, true), (.c, true), (.d, true)] (at14 0x27C0#14)

/-- A state of the invariant at the end of a frame. -/
theorem frameEnd_inv : Inv frameEnd where
  memWf := by decide
  undrivenLow l h := by cases l <;> first | rfl | exact absurd h (by decide)
  phLegal := by decide
  faultIffHold := by decide
  fcodeOk := by decide
  fbWritten := by decide
  colZero := by decide
  rowZero := by decide
  clkHigh := by decide
  clkLow := by decide
  dataStable h := absurd h (by decide)
  oeBlank := by decide
  oeShift := by decide
  latLow := by decide
  latHigh := by decide
  addrNow := by decide
  addrBefore := by decide

/-- The last CLKL of the shift of row 0 while row 15 shows. -/
def rowZeroShift : State := withLines [(.lat, true), (.a, true), (.b, true), (.c, true), (.d, true)] (at14 0x0C3F#14)

theorem witness_LaterFramesShowRowFifteenWhileRowZeroShifts : (Inv frameEnd ∧ frameEnd.ph = Ph.unblank ∧
      frameEnd.row = 15#4 ∧ frameEnd.nextTurn = .sequencer ∧ readyToRun frameEnd ∧ frameEnd.sched = [] ∧
      ∃ t, Machine.step frameEnd = .next t) ∧
    (ShowsRowFifteen rowZeroShift ∧ beforeRowZeroEnds rowZeroShift ∧ rowZeroShift.nextTurn ≠ .reset ∧
      ∃ t, Machine.step rowZeroShift = .next t) :=
  ⟨⟨frameEnd_inv, by decide, by decide, by decide, by decide, by decide, exists_next_of_runs (by decide)⟩,
    ⟨by decide, by decide, by decide⟩, by decide, by decide, exists_next_of_runs (by decide)⟩

theorem witness_AccessRightsFollowOwnership : runs (Machine.step State.reset) ∧ State.reset.nextTurn = .sequencer ∧
    runs (Machine.step { State.reset with sched := [.press] }) ∧ runs (Machine.step { State.reset with sched := [.bankPort 5#3] }) := by
  decide

theorem witness_UndrivenLinesStayLow : runs (exec .addr (at14 0x27C0#14)) ∧ Line.driven .aux = false ∧
    runs (Machine.step (at14 0x27C0#14)) ∧ (at14 0x27C0#14).out = 0#14 := by decide

theorem witness_SequencerNeverWaitsOnTheBankWriter : runs (sequencerTurn State.reset) ∧ runs (sequencerTurn mid) ∧
    mid.ph ≠ Ph.bsample := by decide

theorem witness_DataReadsOnlyTheSampledFrame : (at14 0x0400#14).fb = some 0#2 ∧
    (Memory.blank.put 1#2 314 1#8).frame 0#2 = (at14 0x0400#14).mem.frame 0#2 ∧
    (Memory.blank.put 1#2 314 1#8) ≠ (at14 0x0400#14).mem ∧ runs (exec .data (at14 0x0400#14)) := by decide

theorem witness_BankCountsPressesModuloFour :
    (∀ x ∈ ([.press, .sequencer, .press, .press, .press, .press] : List Turn), x = .sequencer ∨ x = .press) ∧
    seen (Host.Core.run Sys2Proof.core 6 { State.reset with sched := [.press, .sequencer, .press, .press, .press, .press] })
      (fun t => t.bank) = some 1#2 := by decide

theorem witness_StepRunsTheDecodedOperation : (framesAdmitted mid.mem ∧ mid.nextTurn = .sequencer ∧
    decode (.ph4 mid.ph) = .ok .clkl) ∧
    (({ mid with sched := [.bankPort 5#3] } : State).nextTurn = .bankPort 5#3 ∧
      bankWriterEnabled { mid with sched := [.bankPort 5#3] } ∧
      keepsContract 5#3 { mid with sched := [.bankPort 5#3] } ∧ decode (.bport3 5#3) = .ok (.bwr 1#2)) ∧
    (({ mid with sched := [.press] } : State).nextTurn = .press ∧ bankWriterEnabled { mid with sched := [.press] }) ∧
    (({ withCoop (at14 0x1840#14) with sched := [.press] } : State).nextTurn = .press ∧
      bankWriterEnabled { withCoop (at14 0x1840#14) with sched := [.press] }) ∧
    decodeTableWord 8 0xF = some .fhold ∧ decodeTableWord 3 0x7 = some (.bwr 3#2) := by decide

theorem witness_HistoryIsNeverRead : runs (Machine.step mid) ∧ runs (Machine.step { mid with sched := [.bankPort 3#3] }) := by
  decide

theorem witness_ResetStatesSatisfyTheInvariant : mid.mem.wf = true := by decide

/-- A state of the invariant in the middle of a clock pulse. -/
theorem mid_inv : Inv mid where
  memWf := by decide
  undrivenLow l h := by cases l <;> first | rfl | exact absurd h (by decide)
  phLegal := by decide
  faultIffHold := by decide
  fcodeOk := by decide
  fbWritten := by decide
  colZero := by decide
  rowZero := by decide
  clkHigh := by decide
  clkLow := by decide
  dataStable _ := ⟨0#2, by decide, by decide, by decide⟩
  oeBlank := by decide
  oeShift := by decide
  latLow := by decide
  latHigh := by decide
  addrNow := by decide
  addrBefore := by decide

theorem witness_StepKeepsTheInvariant : Inv mid ∧ ∃ t, Machine.step mid = .next t :=
  ⟨mid_inv, exists_next_of_runs (by decide)⟩

/-- A state with a legal history of every kind of event but a fault. -/
def recorded : State :=
  { mid with hist := [[.frameRead 0#2 305 0x02#8, .frameRead 0#2 297 0#8, .lineWrite .gUp true, .lineWrite .gLo false],
                      [.bankWrite 3#2], [.bankRead 3]] }

theorem witness_StepKeepsTheHistoryLegal : recorded.traceLegal ∧ ∃ t, Machine.step recorded = .next t := by
  refine ⟨fun es hes e he => ?_, exists_next_of_runs (by decide)⟩
  simp only [recorded, List.mem_cons, List.not_mem_nil, or_false] at hes
  rcases hes with rfl | rfl | rfl <;> simp only [List.mem_cons, List.not_mem_nil, or_false] at he
  · rcases he with rfl | rfl | rfl | rfl
    · exact ⟨by decide, by decide⟩
    · exact ⟨by decide, by decide⟩
    · exact (by decide : Line.driven .gUp = true)
    · exact (by decide : Line.driven .gLo = true)
  · subst he; trivial
  · subst he; exact (by decide : 3 < NBANKS)

theorem witness_SequencerIsAlwaysEnabled : Inv mid ∧ mid.good ∧ Turn.press ≠ .sequencer ∧
    ∃ t, takeTurn .press mid = .next t :=
  ⟨mid_inv, by decide, by decide, exists_next_of_runs (by decide)⟩

/-- A fair schedule in which the bank writer moves as often as the sequencer. -/
def alternating (n : Nat) : Turn := if n % 2 = 0 then .press else .sequencer

/-- Along the alternating schedule every move is admitted, since COOP_SCHED stays false. -/
theorem alternating_admitted (n : Nat) : ∀ t, runFair alternating n mid = .next t →
    t.cfg = mid.cfg ∧ admittedTurn t (alternating n) := by
  have key : ∀ t : State, t.cfg = mid.cfg → admittedTurn t (alternating n) := by
    intro t h
    unfold alternating
    split
    · exact fun hc => absurd hc (by rw [h]; decide)
    · trivial
  have cfg : ∀ k t, runFair alternating k mid = .next t → t.cfg = mid.cfg := by
    intro k
    induction k with
    | zero => intro t h; injection h with h; rw [h]
    | succ k ih =>
      intro t h
      simp only [runFair] at h
      cases hk : runFair alternating k mid with
      | fault r => rw [hk] at h; nomatch h
      | refused r => rw [hk] at h; nomatch h
      | next u =>
        rw [hk] at h
        obtain ⟨_, h⟩ := Laws.step_next h
        refine Eq.trans ?_ (ih u hk)
        by_cases hx : alternating k = .sequencer
        · simp only [State.nextTurn, List.headD, hx] at h
          exact (Laws.seq_next_keeps h).2.1
        · exact (Laws.bank_turn_keep h hx (by
            show alternating k ≠ .reset
            unfold alternating; split <;> decide)).2.2.2.2.1
  exact fun t h => ⟨cfg n t h, key t (cfg n t h)⟩

theorem witness_FairRunsLatchAgainAndAgain : readyToRun mid ∧ Inv mid ∧ mid.good ∧ fair alternating ∧
    (∀ n, alternating n ≠ .reset) ∧ ∀ n t, runFair alternating n mid = .next t → admittedTurn t (alternating n) := by
  refine ⟨by decide, mid_inv, by decide, fun n => ⟨2 * n + 1, by omega, ?_⟩, fun n => ?_,
    fun n t h => (alternating_admitted n t h).2⟩
  · rw [alternating, if_neg (by omega)]
  · unfold alternating; split <;> decide

/-- A timed state in LWAIT at the moment LATL has completed. -/
def waiting : Timed := { base := at14 0x1840#14, now := 7, latlAt := some 7 }

/-- A timed state at LATL, with the time of an earlier LATL. -/
def latching : Timed := { base := at14 0x1440#14, now := 5, latlAt := some 1 }

theorem test_timed_latl_sets_the_time : (timedStep 2 latching).map Timed.latlAt = some (some 7) ∧
    (timedStep 1000 waiting).map Timed.latlAt = some (some 7) := by decide

theorem witness_TimedStepsKeepTheLatchDelay : (atPhase Ph.latl latching.base ∧ (timedStep 2 latching).isSome = true ∧
    ¬ atPhase Ph.latl waiting.base) ∧ TimedInv waiting ∧ (timedStep 1000 waiting).isSome = true ∧
    (timedStep 999 waiting).isSome = false ∧ runs (Machine.step waiting.base) ∧ waiting.base.cfg.latchDelay ≤ 1000 :=
  ⟨by decide, ⟨fun _ => ⟨by decide, 7, rfl, Nat.le_refl 7⟩, fun h => absurd h (by decide)⟩, by decide, by decide, by decide, by decide⟩

/-- A panel that shifts and latches on rising edges, its columns in the order of its register. -/
def risingPanel : PanelConfig := { latMode := .rise, colMap := Vector.ofFn id }

/-- The block at the first DATA of row 1 with a panel of unknown, here lit, contents. -/
def system : System :=
  { block := at14 0x0440#14
    panel := { sr := Vector.replicate 64 ⟨true, true⟩, olat := Vector.replicate 64 ⟨true, true⟩, prevClk := false,
               prevLat := true } }

theorem witness_PanelShowsOnlyTheAddressedRow : lineOf (1#14 <<< 12) .oe = true ∧ lineOf 0#14 .oe = false := by decide

theorem witness_PanelShiftRegisterHoldsTheRow : risingPanel.clkEdge = .rising ∧ system.panel.prevClk = false ∧
    system.block.line .clk = false ∧ framesAdmitted system.block.mem ∧
    TboInBound system.block.cfg.tbo system.block.mem 0#2 ∧ system.block.fb = some 0#2 ∧ system.block.sched = [] ∧
    system.block.ph = Ph.data ∧ system.block.col = 0#6 := by decide

theorem witness_PanelDisplaysTheScannedRow : risingPanel.clkEdge = .rising ∧ risingPanel.latMode = .rise ∧
    system.panel.prevClk = false ∧ system.block.line .clk = false ∧ framesAdmitted system.block.mem ∧
    TboInBound system.block.cfg.tbo system.block.mem 0#2 ∧ system.block.fb = some 0#2 ∧ system.block.sched = [] ∧
    system.block.ph = Ph.data ∧ system.block.col = 0#6 := by decide

end Sys2Proof.Tests
end

/-! The five lines the sequencer never writes (10_state.md R41). The frame of one operation says both that it
writes none of them and that it records no write of one; the invariant of a step follows from it. -/

namespace Sys2Proof.Proofs

open Sys2Proof.Machine Sys2Proof.Laws

theorem driven_eq_false_iff (l : Line) : l.driven = false ↔ l ∈ [Line.rUp, .bUp, .rLo, .bLo, .aux] := by
  cases l <;> decide

/-- Events among which there is no LineWrite: the reads of a step, and its fault or bank write. -/
def NoLineWrites (es : List Event) : Prop := ∀ l v, Event.lineWrite l v ∉ es

theorem noLineWrites_nil : NoLineWrites [] := fun _ _ => List.not_mem_nil

/-- From `s` to `t` no undriven line changed, and the step's record, where it has one, holds no write of one. -/
structure KeepsUndriven (s t : State) : Prop where
  line : ∀ l : Line, l.driven = false → t.line l = s.line l
  record : ∀ es, t.hist = es :: s.hist → ∀ l : Line, l.driven = false → ∀ v, Event.lineWrite l v ∉ es

theorem mem_writeEvents_iff (ws : List (Line × Level)) (l : Line) (v : Level) :
    Event.lineWrite l v ∈ writeEvents ws ↔ (l, v) ∈ ws := by
  simp [writeEvents]

/-! ### The shared operations -/

/-- Register writes stand in `p`, which has the lines and the record of `s`; then the step drives the lines `ws`. -/
theorem keepsUndriven_complete {s p : State} {rs : List Event} {ws : List (Line × Level)} (hout : p.out = s.out)
    (hhist : p.hist = s.hist) (hrs : NoLineWrites rs) (hws : ∀ w ∈ ws, w.1.driven = true) :
    KeepsUndriven s (p.complete rs ws) where
  line l hl := by
    have hne : ∀ w ∈ ws, w.1 ≠ l := by
      rintro w hw rfl
      exact absurd (hws w hw) (by simp [hl])
    rw [line_complete, lineOf_setLines_of_notMem ws l hne, hout, lineOf_out]
  record es hes l hl v hmem := by
    obtain rfl : rs ++ writeEvents ws = es := by simpa [hhist] using hes
    rcases List.mem_append.1 hmem with hr | hw
    · exact hrs l v hr
    · exact absurd (hws _ ((mem_writeEvents_iff ws l v).1 hw)) (by simp [hl])

theorem keepsUndriven_raiseFault {rs : List Event} (hrs : NoLineWrites rs) (code : FaultCode) (info : FaultInfo)
    (s : State) : KeepsUndriven s (raiseFault code info rs s) where
  line l _ := line_raiseFault code info rs s l
  record es hes l _ v hmem := by
    obtain rfl : rs ++ [Event.fault code s.ph s.row s.col info] = es := by simpa using hes
    exact hrs l v (by simpa using hmem)

theorem keepsUndriven_bankWrite (d : Bank) (s : State) : KeepsUndriven s (Machine.bankWrite d s) where
  line l _ := line_bankWrite d s l
  record es hes l _ v hmem := by
    obtain rfl : [Event.bankWrite d] = es := by simpa using hes
    simp at hmem

/-! ### The operations -/

theorem keepsUndriven_data {s t : State} (h : exec .data s = .next t) : KeepsUndriven s t := by
  have hreads : ∀ rs : List PixelRead, NoLineWrites (rs.map PixelRead.event) := fun rs l v => by
    simp [PixelRead.event]
  rcases execData_cases s with ⟨_, e⟩ | ⟨_, u, w, _, _, _, e⟩ | ⟨_, _, _, e⟩ | ⟨_, u, _, _, _, e⟩ <;>
    rw [e] at h <;> injection h with h <;> subst h
  · exact keepsUndriven_raiseFault noLineWrites_nil ..
  · exact keepsUndriven_complete rfl rfl (hreads [u, w]) (by simp [Line.driven])
  · exact keepsUndriven_raiseFault noLineWrites_nil ..
  · exact keepsUndriven_raiseFault (hreads [u]) ..

/-- Every operation leaves the undriven lines and records no write of one (10_state.md R41). -/
theorem exec_keepsUndriven {i : Instr} {s t : State} (h : exec i s = .next t) : KeepsUndriven s t := by
  cases i with
  | data => exact keepsUndriven_data h
  | fhold => simp at h
  | bwr d =>
    obtain rfl : Machine.bankWrite d s = t := by simpa using h
    exact keepsUndriven_bankWrite d s
  | bsample =>
    rw [exec_bsample] at h; injection h with h; subst h
    exact keepsUndriven_complete rfl rfl (fun l v => by simp) (by simp)
  | addr =>
    rw [exec_addr] at h; injection h with h; subst h
    exact keepsUndriven_complete rfl rfl noLineWrites_nil (by simp [addrWrites, Line.driven])
  | clkh | clkl | blank | latl | lwait | lath | unblank =>
    injection h with h; subst h
    exact keepsUndriven_complete rfl rfl noLineWrites_nil (by simp [Line.driven])

theorem sequencerTurn_keepsUndriven {s t : State} (h : sequencerTurn s = .next t) : KeepsUndriven s t := by
  cases hd : decodePhase s.ph with
  | ok i => exact exec_keepsUndriven ((sequencerTurn_of_decode hd).symm.trans h)
  | error e =>
    rw [sequencerTurn_reserved hd] at h; injection h with h; subst h
    exact keepsUndriven_raiseFault noLineWrites_nil ..

/-! ### Reset and the step -/

/-- Reset lowers the undriven lines from any state, whatever INIT_LEVELS is (10_state.md R41). -/
theorem assertReset_line_undriven (s : State) {l : Line} (hl : l.driven = false) :
    (assertReset s).line l = false := by
  rw [← lineOf_out, assertReset_out, lineOf_resetOut]
  obtain rfl | rfl | rfl | rfl | rfl : l = .rUp ∨ l = .bUp ∨ l = .rLo ∨ l = .bLo ∨ l = .aux := by
    simpa using (driven_eq_false_iff l).1 hl
  all_goals rfl

/-- Every move but reset leaves the undriven lines as they are. -/
theorem takeTurn_line_undriven {x : Turn} {s t : State} (hx : x ≠ .reset) (h : takeTurn x s = .next t) {l : Line}
    (hl : l.driven = false) : t.line l = s.line l := by
  by_cases hseq : x = .sequencer
  · subst hseq
    exact (sequencerTurn_keepsUndriven h).line l hl
  · obtain ⟨-, -, -, -, -, -, -, hout⟩ := bank_turn_keep h hseq hx
    exact congrArg (lineOf · l) hout

theorem step_keeps_undriven_low {s t : State} (h : Machine.step s = .next t)
    (hlow : ∀ l : Line, l.driven = false → s.line l = false) {l : Line} (hl : l.driven = false) :
    t.line l = false := by
  obtain ⟨-, hturn⟩ := step_next h
  by_cases hreset : s.nextTurn = .reset
  · rw [hreset] at hturn; injection hturn with hturn; subst hturn
    exact assertReset_line_undriven _ hl
  · exact (takeTurn_line_undriven hreset hturn hl).trans (hlow l hl)

/-- Settles O40: the frame of each operation, the levels reset sets, and the step's case split on the move. -/
theorem undrivenLinesStayLow : Obligations.UndrivenLinesStayLow :=
  ⟨driven_eq_false_iff,
    fun _ _ _ _ h hl => ⟨(exec_keepsUndriven h).line _ hl, fun _ hes => (exec_keepsUndriven h).record _ hes _ hl⟩,
    fun s _ hl => assertReset_line_undriven s hl,
    fun _ _ h hlow _ hl => step_keeps_undriven_low h hlow hl⟩

end Sys2Proof.Proofs

/-! The encodings of 30_encoding.md: the SEQ14 word as a bijection with the positions (R102), and the decoder against
the opcode map (R111). The map fixes a row by the word it selects, so the row of a decoded operation is the only one
that can select its word. -/

namespace Sys2Proof.Proofs

open Sys2Proof.Machine Sys2Proof.Laws

/-! ### The SEQ14 word -/

@[simp] theorem seq14_ph (s : State) : s.seq14.extractLsb' 10 4 = s.ph := by
  rw [State.seq14, BitVec.extractLsb'_append_eq_of_le (by decide)]
  exact BitVec.extractLsb'_append_eq_left

@[simp] theorem seq14_row (s : State) : s.seq14.extractLsb' 6 4 = s.row := by
  rw [State.seq14, BitVec.extractLsb'_append_eq_of_le (by decide)]
  exact BitVec.extractLsb'_append_eq_right

@[simp] theorem seq14_col (s : State) : s.seq14.extractLsb' 0 6 = s.col :=
  BitVec.extractLsb'_append_eq_right

theorem toNat_append_eq_mul_add {m n : Nat} (x : BitVec m) (y : BitVec n) :
    (x ++ y).toNat = x.toNat * 2 ^ n + y.toNat := by
  rw [BitVec.toNat_append, ← Nat.shiftLeft_add_eq_or_of_lt y.isLt, Nat.shiftLeft_eq]

theorem seq14_toNat (s : State) : s.seq14.toNat = 1024 * s.ph.toNat + 64 * s.row.toNat + s.col.toNat := by
  rw [State.seq14, toNat_append_eq_mul_add, toNat_append_eq_mul_add]
  omega

@[simp] theorem withSeq14_seq14 (s : State) : s.withSeq14 s.seq14 = s := by
  rw [State.withSeq14, seq14_ph, seq14_row, seq14_col]

@[simp] theorem seq14_withSeq14 (s : State) (w : Seq14) : (s.withSeq14 w).seq14 = w := by
  have hphRow : w.extractLsb' 10 4 ++ w.extractLsb' 6 4 = w.extractLsb' 6 8 :=
    BitVec.extractLsb'_append_extractLsb'_eq_extractLsb' rfl
  rw [State.seq14, withSeq14_ph, withSeq14_row, withSeq14_col, hphRow]
  exact BitVec.extractLsb'_append_extractLsb'

/-- Settles O5: the three fields are read off the concatenation, and put together again they are the word. -/
theorem seq14NamesThePosition : Obligations.Seq14NamesThePosition :=
  ⟨fun s => ⟨seq14_ph s, seq14_row s, seq14_col s, seq14_toNat s, withSeq14_seq14 s⟩, seq14_withSeq14⟩

/-! ### The decoder -/

theorem decodePort_ok_iff (w : PortWord) (i : Instr) :
    decodePort w = .ok i ↔ portWe w = true ∧ i = .bwr (portWd w) := by
  unfold decodePort
  by_cases hwe : portWe w = true
  · simp [hwe, eq_comm]
  · simp [hwe]

theorem portWord_portWd {w : PortWord} (h : portWe w = true) : portWord true (portWd w) = w := by
  revert w; decide

/-- A PH code is the word of the operation it selects, or reserved (30_encoding.md R100, R110). -/
theorem decodePhase_cases (c : PhaseCode) :
    (∃ i, decodePhase c = .ok i ∧ encode i = .ph4 c) ∨ decodePhase c = .error (.reservedPhase c) := by
  rcases phase_cases c with rfl | rfl | rfl | rfl | rfl | rfl | rfl | rfl | rfl | rfl | rfl | hres
  case inr.inr.inr.inr.inr.inr.inr.inr.inr.inr.inr => exact .inr hres
  all_goals exact .inl ⟨_, rfl, rfl⟩

theorem encode_of_decodePhase {c : PhaseCode} {i : Instr} (h : decodePhase c = .ok i) : encode i = .ph4 c := by
  rcases decodePhase_cases c with ⟨j, hj, hword⟩ | hres
  · obtain rfl : j = i := Except.ok.inj (hj.symm.trans h)
    exact hword
  · nomatch hres.symm.trans h

theorem encode_of_decode {w : EncWord} {i : Instr} (h : decode w = .ok i) : encode i = w := by
  cases w with
  | ph4 c => exact encode_of_decodePhase h
  | bport3 w =>
    obtain ⟨hwe, rfl⟩ := (decodePort_ok_iff w i).1 h
    exact congrArg EncWord.bport3 (portWord_portWd hwe)

/-! ### The rows of the opcode map -/

theorem selects_iff (r : OpRow) (w : EncWord) :
    r.selects w = true ↔ r.format = w.format ∧ w.bits &&& r.mask = r.pattern := by
  simp [OpRow.selects]

theorem mask_of_ph4 : ∀ r ∈ opcodeTable, r.format = .ph4 → r.mask = 0xF := by decide

theorem bits_of_bport3 : ∀ r ∈ opcodeTable, r.format = .bport3 → r.mask = 4 ∧ r.pattern = 4 := by decide

theorem row_eq_of_format_pattern : ∀ r ∈ opcodeTable, ∀ r' ∈ opcodeTable, r.format = r'.format →
    r.pattern = r'.pattern → r = r' := by decide

theorem row_eq_of_mnemonic : ∀ r ∈ opcodeTable, ∀ r' ∈ opcodeTable, r.mnemonic = r'.mnemonic → r = r' := by decide

/-- The mask 0xF keeps every bit of a PH code. -/
theorem selects_ph4_iff {r : OpRow} (hr : r ∈ opcodeTable) (hf : r.format = .ph4) (c : PhaseCode) :
    r.selects (.ph4 c) = true ↔ c.toNat = r.pattern := by
  have hmask : c.toNat &&& 0xF = c.toNat := Nat.and_two_pow_sub_one_of_lt_two_pow c.isLt
  rw [selects_iff, mask_of_ph4 r hr hf]
  show r.format = .ph4 ∧ c.toNat &&& 0xF = r.pattern ↔ _
  rw [hmask, and_iff_right hf]

theorem and_four_eq_four_iff (w : PortWord) : w.toNat &&& 4 = 4 ↔ portWe w = true := by
  revert w; decide

theorem selects_bport3_iff {r : OpRow} (hr : r ∈ opcodeTable) (hf : r.format = .bport3) (w : PortWord) :
    r.selects (.bport3 w) = true ↔ portWe w = true := by
  obtain ⟨hmask, hpat⟩ := bits_of_bport3 r hr hf
  rw [selects_iff, hmask, hpat, ← and_four_eq_four_iff]
  exact and_iff_right hf

/-- No word is selected by two rows: rows of one format have one mask, so the word gives both their patterns. -/
theorem row_eq_of_selects {w : EncWord} {r r' : OpRow} (hr : r ∈ opcodeTable) (hr' : r' ∈ opcodeTable)
    (h : r.selects w = true) (h' : r'.selects w = true) : r = r' := by
  obtain ⟨hf, hp⟩ := (selects_iff r w).1 h
  obtain ⟨hf', hp'⟩ := (selects_iff r' w).1 h'
  have hmask : ∀ r ∈ opcodeTable, ∀ r' ∈ opcodeTable, r.format = r'.format → r.mask = r'.mask := by decide
  have hformat : r.format = r'.format := hf.trans hf'.symm
  refine row_eq_of_format_pattern r hr r' hr' hformat ?_
  rw [← hp, ← hp', hmask r hr r' hr' hformat]

/-! ### The decoder and the opcode map -/

/-- Every operation has its row in the opcode map. -/
theorem tableRow (i : Instr) : TableRow.Statement i := by
  cases i with
  | bsample => exact TableRow.bsample
  | data => exact TableRow.data
  | clkh => exact TableRow.clkh
  | clkl => exact TableRow.clkl
  | blank => exact TableRow.blank
  | latl => exact TableRow.latl
  | lwait => exact TableRow.lwait
  | lath => exact TableRow.lath
  | addr => exact TableRow.addr
  | unblank => exact TableRow.unblank
  | fhold => exact TableRow.fhold
  | bwr d => exact TableRow.bwr d

theorem row_of_decode {w : EncWord} {i : Instr} (h : decode w = .ok i) :
    ∃ r ∈ opcodeTable, r.selects w = true ∧ r.mnemonic = i.mnemonic := by
  obtain ⟨r, hr, hname, hsel⟩ := tableRow i
  exact ⟨r, hr, encode_of_decode h ▸ hsel, hname⟩

/-- No row of the opcode map has the pattern of a reserved PH code (30_encoding.md R110). -/
theorem decodePhase_pattern_ne_reserved : ∀ r ∈ opcodeTable, r.format = .ph4 →
    decodePhase (BitVec.ofNat 4 r.pattern) ≠ .error (.reservedPhase (BitVec.ofNat 4 r.pattern)) := by decide

theorem decode_of_selects {w : EncWord} {r : OpRow} (hr : r ∈ opcodeTable) (h : r.selects w = true) :
    ∃ i, decode w = .ok i := by
  have hf : r.format = w.format := ((selects_iff r w).1 h).1
  cases w with
  | ph4 c =>
    have hpat : c = BitVec.ofNat 4 r.pattern := BitVec.eq_of_toNat_eq (by
      rw [← (selects_ph4_iff hr hf c).1 h, BitVec.ofNat_toNat, BitVec.setWidth_eq])
    rcases decodePhase_cases c with ⟨i, hi, -⟩ | hres
    · exact ⟨i, hi⟩
    · exact absurd (hpat ▸ hres) (decodePhase_pattern_ne_reserved r hr hf)
  | bport3 w =>
    exact ⟨.bwr (portWd w), (decodePort_ok_iff w _).2 ⟨(selects_bport3_iff hr hf w).1 h, rfl⟩⟩

theorem decode_mnemonic_iff (w : EncWord) (name : String) :
    (∃ i, decode w = .ok i ∧ i.mnemonic = name) ↔ ∃ r ∈ opcodeTable, r.selects w = true ∧ r.mnemonic = name := by
  constructor
  · rintro ⟨i, hi, rfl⟩
    exact row_of_decode hi
  · rintro ⟨r, hr, hsel, rfl⟩
    obtain ⟨i, hi⟩ := decode_of_selects hr hsel
    obtain ⟨r', hr', hsel', hname⟩ := row_of_decode hi
    obtain rfl : r = r' := row_eq_of_selects hr hr' hsel hsel'
    exact ⟨i, hi, hname.symm⟩

theorem decode_bport3_iff (w : PortWord) : (∃ d, decode (.bport3 w) = .ok (.bwr d)) ↔ w.getLsbD 2 = true := by
  constructor
  · rintro ⟨d, hd⟩
    exact ((decodePort_ok_iff w _).1 hd).1
  · exact fun hwe => ⟨portWd w, (decodePort_ok_iff w _).2 ⟨hwe, rfl⟩⟩

/-- Settles O3: the masks read off the map, and the word of a decoded operation selected by that operation's row
alone. -/
theorem decoderAgreesWithOpcodeTable : Obligations.DecoderAgreesWithOpcodeTable :=
  ⟨by decide, by decide, fun r hr hf => ⟨mask_of_ph4 r hr hf, selects_ph4_iff hr hf⟩, decode_bport3_iff,
    decode_mnemonic_iff, fun _ _ hr _ hr' => row_eq_of_selects hr hr', row_eq_of_mnemonic⟩

end Sys2Proof.Proofs

/-! The row-scan steps that drive output lines (42_row_scan.md R163 to R166 and R168 to R170): four that drive one line
and go to a fixed successor, the two advances, whose successor turns on the wrap of COL or ROW, and ADDR, which drives
four lines. -/

namespace Sys2Proof.Proofs

open Sys2Proof.Machine Sys2Proof.Laws

/-! ### The steps of one LineWrite -/

theorem line_complete_singleton_same (rs : List Event) (l : Line) (v : Level) (s : State) :
    (s.complete rs [(l, v)]).line l = v := by simp

theorem line_complete_singleton_of_ne (rs : List Event) {l l' : Line} (h : l' ≠ l) (v : Level) (s : State) :
    (s.complete rs [(l, v)]).line l' = s.line l' := by simp [h, lineOf_out]

/-- An operation whose whole effect is one LineWrite and its successor, in the words of
`Obligations.SingleLineStepsDriveTheirLine`. -/
theorem singleLineStep_effect {i : Instr} {l : Line} {v : Level} {succ : PhaseCode}
    (hexec : ∀ s, exec i s = .next (State.complete [] [(l, v)] { s with ph := succ })) (s : State) :
    ∃ t, exec i s = .next t ∧ t = { s with ph := succ, out := t.out, hist := t.hist } ∧ t.line l = v ∧
      (∀ l', l' ≠ l → t.line l' = s.line l') ∧ t.hist = [.lineWrite l v] :: s.hist :=
  ⟨_, hexec s, rfl, line_complete_singleton_same .., fun _ hl => line_complete_singleton_of_ne _ hl .., rfl⟩

/-- Settles O9: the four steps are the one single-line step, each with its own line, level and successor. -/
theorem singleLineStepsDriveTheirLine : Obligations.SingleLineStepsDriveTheirLine := by
  intro x hx
  simp only [List.mem_cons, List.not_mem_nil, or_false] at hx
  obtain rfl | rfl | rfl | rfl := hx
  · exact ⟨rfl, singleLineStep_effect exec_clkh⟩
  · exact ⟨rfl, singleLineStep_effect exec_blank⟩
  · exact ⟨rfl, singleLineStep_effect exec_latl⟩
  · exact ⟨rfl, singleLineStep_effect exec_lath⟩

/-! ### The two advances -/

/-- COL and ROW advance by 1 modulo their range, and the successor is chosen at the value `last`. -/
theorem advance_wraps {w : Nat} (x last : BitVec w) (atLast otherwise : PhaseCode) :
    (x + 1#w).toNat = (x.toNat + 1) % 2 ^ w ∧
      (x.toNat = last.toNat → (if x = last then atLast else otherwise) = atLast) ∧
      (x.toNat ≠ last.toNat → (if x = last then atLast else otherwise) = otherwise) := by
  refine ⟨?_, fun hlast => if_pos (BitVec.eq_of_toNat_eq hlast),
    fun hne => if_neg (ne_of_apply_ne BitVec.toNat hne)⟩
  simp [BitVec.toNat_add]

/-- Settles O10: the advance of the 6-bit COL, whose last value is 63. -/
theorem clklAdvancesTheColumn : Obligations.ClklAdvancesTheColumn :=
  ⟨rfl, fun s => ⟨_, exec_clkl s, rfl, line_complete_singleton_same ..,
    fun _ hl => line_complete_singleton_of_ne _ hl .., advance_wraps s.col 63#6 Ph.blank Ph.data⟩⟩

/-- Settles O13: the advance of the 4-bit ROW, whose last value is 15. -/
theorem unblankAdvancesTheRow : Obligations.UnblankAdvancesTheRow :=
  ⟨rfl, fun s => ⟨_, exec_unblank s, rfl, line_complete_singleton_same ..,
    fun _ hl => line_complete_singleton_of_ne _ hl .., advance_wraps s.row 15#4 Ph.bsample Ph.data⟩⟩

/-! ### The row address -/

theorem lineOf_addrWrites_of_ne (o : OutWord) (r : RowIdx) {l : Line} (ha : l ≠ .a) (hb : l ≠ .b) (hc : l ≠ .c)
    (hd : l ≠ .d) : lineOf (setLines o (addrWrites r)) l = lineOf o l :=
  lineOf_setLines_of_notMem _ l (by simp [addrWrites, ha.symm, hb.symm, hc.symm, hd.symm]) o

/-- Settles O12: the address on the lines is ROW (30_encoding.md R106), so its bits are the levels of A, B, C and D. -/
theorem addrPutsTheRowOnTheLines : Obligations.AddrPutsTheRowOnTheLines := by
  refine ⟨rfl, fun s => ⟨_, exec_addr s, rfl, ?_⟩⟩
  have haddr : addrOf (setLines s.out (addrWrites s.row)) = s.row := addrOf_addrWrites ..
  obtain ⟨ha, hb, hc, hd⟩ := (addrOf_eq_iff _ _).1 haddr
  exact ⟨ha, hb, hc, hd, haddr, fun _ => lineOf_addrWrites_of_ne _ _, _, rfl, .refl _⟩

end Sys2Proof.Proofs


/-! The write operation of the Bank Selector (43_bank_select.md R202): BWR completes in every state with BANK and the
record as its whole effect. -/

namespace Sys2Proof.Proofs

open Sys2Proof.Machine Sys2Proof.Laws

/-- The word BWR d puts on the port is `{1, d}` (30_encoding.md R108). -/
theorem encode_bwr (d : Bank) : encode (.bwr d) = .bport3 (1#1 ++ d) := rfl

theorem bankWrite_eq (d : Bank) (s : State) :
    Machine.bankWrite d s = { s with bank := d, hist := [.bankWrite d] :: s.hist } := rfl

/-- The value of BWR d stays in BANK until the next write, whatever the state held before. -/
theorem bank_of_exec_bwr {d : Bank} {s t : State} (h : exec (.bwr d) s = .next t) : t.bank = d := by
  obtain rfl : Machine.bankWrite d s = t := by simpa only [exec_bwr, Host.Outcome.next.injEq] using h
  exact bankWrite_bank d s

/-- Settles O15: the one successor is `bankWrite d s`, and of two writes the second alone fixes BANK. -/
theorem bwrWritesTheBank : Obligations.BwrWritesTheBank := by
  refine ⟨encode_bwr, fun d s => ⟨Machine.bankWrite d s, exec_bwr d s, bankWrite_eq d s, line_bankWrite d s, ?_⟩,
    fun _ _ _ _ _ _ hlater => bank_of_exec_bwr hlater⟩
  intro b a
  rw [bankWrite_mem]

end Sys2Proof.Proofs

/-! Faults, the configuration refusal and the access rights (60_exceptions.md R224, R226, R229). A move of the bank
writer is no move or one write of BANK: that settles its side of R229 and, as FHOLD stops the sequencer, every step
there is in a fault but a reset. -/

namespace Sys2Proof.Proofs

open Sys2Proof.Machine Sys2Proof.Laws

/-! ### The bank writer's step -/

/-- A step of the bank writer, by PRESS or by a word on its port, writes (BANK + 1) mod 4 or nothing. -/
theorem step_next_bankWriter {s t : State} (h : Machine.step s = .next t) (hseq : s.nextTurn ≠ .sequencer)
    (hreset : s.nextTurn ≠ .reset) : t = s.popTurn ∨ t = Machine.bankWrite (s.bank + 1#2) s.popTurn := by
  obtain ⟨-, hturn⟩ := step_next h
  cases hx : s.nextTurn <;> rw [hx] at hturn
  case sequencer => exact absurd hx hseq
  case reset => exact absurd hx hreset
  case bankPort w => exact bankPortTurn_next hturn
  case press => exact bankPortTurn_next hturn

/-! ### The fault state -/

/-- In FHOLD the sequencer has no step (60_exceptions.md R223). -/
theorem nextTurn_ne_sequencer_of_fhold {s t : State} (hph : s.ph = Ph.fhold) (h : Machine.step s = .next t) :
    s.nextTurn ≠ .sequencer := by
  obtain ⟨-, hturn⟩ := step_next h
  intro hseq
  rw [hseq] at hturn
  nomatch (sequencerTurn_fhold (s := s.popTurn) hph).symm.trans hturn

/-- Settles O35: the step is the bank writer's, whose one effect is a write of BANK. -/
theorem onlyResetClearsAFault : Obligations.OnlyResetClearsAFault := by
  intro s t hph hfault h hreset
  rcases step_next_bankWriter h (nextTurn_ne_sequencer_of_fhold hph h) hreset with rfl | rfl
  · exact ⟨hph, hfault, rfl, rfl, .inl rfl⟩
  · exact ⟨hph, hfault, rfl, rfl, .inr ⟨_, rfl⟩⟩

/-! ### The configuration refusal -/

theorem framesAdmitted_iff (m : Memory) : framesAdmitted m ↔ ∀ b : Bank, 315 ≤ (m.frame b).len := by
  have hbank : ∀ b : Bank, b = 0#2 ∨ b = 1#2 ∨ b = 2#2 ∨ b = 3#2 := by decide
  constructor
  · rintro ⟨h0, h1, h2, h3⟩ b
    obtain rfl | rfl | rfl | rfl := hbank b
    · exact h0
    · exact h1
    · exact h2
    · exact h3
  · exact fun h => ⟨h 0#2, h 1#2, h 2#2, h 3#2⟩

/-- Every operation has a meaning: it completes, or stops under the name of a fault. -/
theorem exec_ne_refused (i : Instr) (s : State) (r : Refusal) : exec i s ≠ .refused r := by
  cases i with
  | data => rcases execData_cases s with ⟨_, e⟩ | ⟨_, _, _, _, _, _, e⟩ | ⟨_, _, _, e⟩ | ⟨_, _, _, _, _, e⟩ <;> simp [e]
  | bsample | clkh | clkl | blank | latl | lwait | lath | addr | unblank | fhold | bwr => simp

theorem sequencerTurn_ne_refused (s : State) (r : Refusal) : sequencerTurn s ≠ .refused r := by
  cases hd : decodePhase s.ph with
  | ok i => rw [sequencerTurn_of_decode hd]; exact exec_ne_refused i s r
  | error e => simp [sequencerTurn_reserved hd]

theorem bankPortTurn_ne_refused (w : PortWord) (s : State) (r : Refusal) : bankPortTurn w s ≠ .refused r := by
  rw [bankPortTurn_eq]
  split_ifs <;> simp

theorem takeTurn_ne_refused (x : Turn) (s : State) (r : Refusal) : takeTurn x s ≠ .refused r := by
  cases x with
  | sequencer => exact sequencerTurn_ne_refused s r
  | bankPort w => exact bankPortTurn_ne_refused w s r
  | press => exact bankPortTurn_ne_refused (pressWord s) s r
  | reset => exact nofun

/-- Settles O36: the step refuses a Frame Store that is not admitted, and no move refuses. -/
theorem undersizedFrameIsRefused : Obligations.UndersizedFrameIsRefused := by
  intro s
  constructor
  · rintro ⟨b, hshort⟩
    have hnot : ¬ framesAdmitted s.mem := fun hadm => absurd ((framesAdmitted_iff _).1 hadm b) (by omega)
    rw [step_eq, if_neg hnot]
  · intro hlen r
    rw [step_eq, if_pos ((framesAdmitted_iff _).2 hlen)]
    exact takeTurn_ne_refused _ _ r

/-! ### Access rights -/

/-- A sequencer step keeps the Frame Store, the parameters and BANK. -/
theorem step_keeps_of_sequencer {s t : State} (h : Machine.step s = .next t) (hseq : s.nextTurn = .sequencer) :
    t.mem = s.mem ∧ t.cfg = s.cfg ∧ t.bank = s.bank := by
  obtain ⟨-, hturn⟩ := step_next h
  rw [hseq] at hturn
  obtain ⟨hmem, hcfg, hbank, -, -⟩ := seq_next_keeps hturn
  exact ⟨hmem, hcfg, hbank⟩

/-- No step writes the Frame Store or the parameters, a reset included. -/
theorem step_keeps_mem_cfg {s t : State} (h : Machine.step s = .next t) : t.mem = s.mem ∧ t.cfg = s.cfg := by
  by_cases hseq : s.nextTurn = .sequencer
  · obtain ⟨hmem, hcfg, -⟩ := step_keeps_of_sequencer h hseq
    exact ⟨hmem, hcfg⟩
  by_cases hreset : s.nextTurn = .reset
  · obtain ⟨-, hturn⟩ := step_next h
    rw [hreset] at hturn; injection hturn with hturn; subst hturn
    exact ⟨rfl, rfl⟩
  · rcases step_next_bankWriter h hseq hreset with rfl | rfl <;> exact ⟨rfl, rfl⟩

/-- Settles O39: the frame of each agent's step. -/
theorem accessRightsFollowOwnership : Obligations.AccessRightsFollowOwnership := by
  intro s t h
  refine ⟨step_keeps_mem_cfg h, fun hseq => ?_, fun w hw => ?_⟩
  · obtain ⟨-, -, hbank⟩ := step_keeps_of_sequencer h hseq
    exact hbank
  · obtain ⟨hseq, hreset⟩ : s.nextTurn ≠ .sequencer ∧ s.nextTurn ≠ .reset := by rcases hw with e | e <;> simp [e]
    rcases step_next_bankWriter h hseq hreset with rfl | rfl <;> exact ⟨rfl, rfl, rfl, rfl, rfl, rfl, rfl⟩

end Sys2Proof.Proofs

/-! Reset (70_reset_and_hazards.md R260). The move completes in every state, whatever its PH or FAULT, and its one
successor is `assertReset s`; each output line stands at the level `lineOf_resetOut` gives. -/

namespace Sys2Proof.Proofs

open Sys2Proof.Machine Sys2Proof.Laws

@[simp] theorem takeTurn_reset (s : State) : takeTurn .reset s = .next (assertReset s) := rfl

@[simp] theorem assertReset_line (s : State) (l : Line) :
    (assertReset s).line l = lineOf (resetOut s.cfg.initLevels) l := by
  rw [← lineOf_out, assertReset_out]

/-- Settles O34: the registers of `assertReset s`, then its undriven and its driven lines, then what it keeps. -/
theorem resetLeavesTheInitialState : Obligations.ResetLeavesTheInitialState := by
  intro s
  have hlow : ∀ l : Line, l.driven = false → (assertReset s).line l = false := fun _ hl => assertReset_line_undriven s hl
  have hhist : ∀ es ∈ (assertReset s).hist, es ∈ s.hist := by simp
  refine ⟨assertReset s, takeTurn_reset s, assertReset_ph s, assertReset_row s, assertReset_col s, assertReset_fb s,
    assertReset_fault s, assertReset_fcode s, assertReset_bank s, hlow, ?_, ?_, ?_, ?_, ?_, ?_, ?_, ?_, ?_, hhist,
    assertReset_mem s, assertReset_cfg s⟩ <;>
  rw [assertReset_line, lineOf_resetOut]

end Sys2Proof.Proofs


/-! Decode and encode in both directions (30_encoding.md §1 and §2). A byte holds a word of its format in its low bits,
so what is true of `decodeByte` follows from what is true of `decode`. -/

namespace Sys2Proof.Proofs

open Sys2Proof.Machine Sys2Proof.Laws

theorem decode_encode (i : Instr) : decode (encode i) = .ok i := by
  cases i with
  | bwr d => exact (decodePort_ok_iff _ _).2 ⟨portWe_portWord true d, by rw [portWd_portWord]⟩
  | bsample | data | clkh | clkl | blank | latl | lwait | lath | addr | unblank | fhold => rfl

theorem setWidth_ofNat_toNat {n m : Nat} (x : BitVec n) (h : n ≤ m) : (BitVec.ofNat m x.toNat).setWidth n = x :=
  BitVec.eq_of_toNat_eq (by
    have hx : x.toNat < 2 ^ m := Nat.lt_of_lt_of_le x.isLt (Nat.pow_le_pow_right (by decide) h)
    rw [BitVec.toNat_setWidth, BitVec.toNat_ofNat, Nat.mod_eq_of_lt hx, Nat.mod_eq_of_lt x.isLt])

/-- The byte of a word decodes as the word does. -/
theorem decodeByte_bits (w : EncWord) : decodeByte w.format (BitVec.ofNat 8 w.bits) = decode w := by
  cases w with
  | ph4 c =>
    have hlt : (BitVec.ofNat 8 c.toNat).toNat < 16 := by have := c.isLt; rw [BitVec.toNat_ofNat]; omega
    show decodeByte .ph4 (BitVec.ofNat 8 c.toNat) = decodePhase c
    rw [decodeByte, if_pos hlt, setWidth_ofNat_toNat c (by decide)]
  | bport3 w =>
    have hlt : (BitVec.ofNat 8 w.toNat).toNat < 8 := by have := w.isLt; rw [BitVec.toNat_ofNat]; omega
    show decodeByte .bport3 (BitVec.ofNat 8 w.toNat) = decodePort w
    rw [decodeByte, if_pos hlt, setWidth_ofNat_toNat w (by decide)]

/-- A byte that decodes is the byte of a word of its format. -/
theorem word_of_decodeByte {f : Format} {b : Byte} {i : Instr} (h : decodeByte f b = .ok i) :
    ∃ w : EncWord, w.format = f ∧ w.bits = b.toNat ∧ decode w = .ok i := by
  cases f <;> simp only [decodeByte] at h <;> split at h
  case ph4.isTrue hlt => exact ⟨.ph4 (b.setWidth 4), rfl, by simp [EncWord.bits, Nat.mod_eq_of_lt hlt], h⟩
  case bport3.isTrue hlt => exact ⟨.bport3 (b.setWidth 3), rfl, by simp [EncWord.bits, Nat.mod_eq_of_lt hlt], h⟩
  all_goals nomatch h

/-- Settles O2: on words by the decoder's tables, and on bytes through the word a byte holds. -/
theorem decodeEncodeRoundTrip : Obligations.DecodeEncodeRoundTrip := by
  refine ⟨fun i _ => ⟨decode_encode i, (decodeByte_bits _).trans (decode_encode i)⟩, fun _ _ => encode_of_decode, ?_⟩
  intro f b i h
  obtain ⟨w, hformat, hbits, hdecode⟩ := word_of_decodeByte h
  rw [encode_of_decode hdecode]
  exact ⟨hformat, hbits⟩

/-- Settles O1: a word written out from the tables is the word `encode` gives its operation. -/
theorem writtenWordsDecode : Obligations.WrittenWordsDecode :=
  ⟨decode_encode .bsample, decode_encode .data, decode_encode .clkl, decode_encode .lwait, decode_encode .addr,
    decode_encode .fhold, decode_encode (.bwr 1#2), decode_encode (.bwr 2#2)⟩

end Sys2Proof.Proofs


/-! What one step of the sequencer can do (42_row_scan.md R160 to R170, 60_exceptions.md R221): one constructor a way,
with the phase it starts from. The inversion lemma is the only place that runs `sequencerTurn`; what every step keeps is
a case split over these constructors. -/

namespace Sys2Proof.Proofs

open Sys2Proof.Machine Sys2Proof.Laws

/-- The successors of a state under a step of the sequencer that completes. -/
inductive SeqStep (s : State) : State → Prop
  | bsample (hph : s.ph = Ph.bsample) : SeqStep s (State.complete [.bankRead s.bank.toNat] []
      { s with fb := some s.bank, row := 0#4, col := 0#6, ph := Ph.data })
  /-- DATA with FB unwritten. -/
  | dataUnwritten (hph : s.ph = Ph.data) (hfb : s.fb = none) : SeqStep s (raiseFault .phase (.phase s.ph) [] s)
  /-- DATA whose two reads are admitted. -/
  | dataPair (hph : s.ph = Ph.data) (b : Bank) (u l : PixelRead) (hfb : s.fb = some b)
      (hu : pixelRead s.cfg.tbo s.mem b (bitPosUp s.row.toNat s.col.toNat) = some u)
      (hl : pixelRead s.cfg.tbo s.mem b (bitPosLo s.row.toNat s.col.toNat) = some l) :
      SeqStep s (State.complete [u.event, l.event] [(.gUp, u.bit), (.gLo, l.bit)] { s with ph := Ph.clkh })
  /-- DATA whose read of plane `pl` is not admitted, after the admitted reads `made`. -/
  | dataOob (hph : s.ph = Ph.data) (b : Bank) (pl : Plane) (made : List PixelRead) (hfb : s.fb = some b)
      (hmade : ∀ r ∈ made, pixelRead s.cfg.tbo s.mem b (bitPosUp s.row.toNat s.col.toNat) = some r)
      (hnot : ¬ Admit s.mem b (pixelAddr s.cfg.tbo (bitPos pl s.row.toNat s.col.toNat))) :
      SeqStep s (raiseFault .frameOob (.read pl b (pixelAddr s.cfg.tbo (bitPos pl s.row.toNat s.col.toNat)))
        (made.map PixelRead.event) s)
  | clkh (hph : s.ph = Ph.clkh) : SeqStep s (State.complete [] [(.clk, true)] { s with ph := Ph.clkl })
  | clkl (hph : s.ph = Ph.clkl) : SeqStep s (State.complete [] [(.clk, false)]
      { s with col := s.col + 1#6, ph := if s.col = 63#6 then Ph.blank else Ph.data })
  | blank (hph : s.ph = Ph.blank) : SeqStep s (State.complete [] [(.oe, true)] { s with ph := Ph.latl })
  | latl (hph : s.ph = Ph.latl) : SeqStep s (State.complete [] [(.lat, false)] { s with ph := Ph.lwait })
  | lwait (hph : s.ph = Ph.lwait) : SeqStep s (State.complete [] [] { s with ph := Ph.lath })
  | lath (hph : s.ph = Ph.lath) : SeqStep s (State.complete [] [(.lat, true)] { s with ph := Ph.addr })
  | addr (hph : s.ph = Ph.addr) : SeqStep s (State.complete [] (addrWrites s.row) { s with ph := Ph.unblank })
  | unblank (hph : s.ph = Ph.unblank) : SeqStep s (State.complete [] [(.oe, false)]
      { s with row := s.row + 1#4, ph := if s.row = 15#4 then Ph.bsample else Ph.data })
  | reserved (hph : decodePhase s.ph = .error (.reservedPhase s.ph)) :
      SeqStep s (raiseFault .phase (.phase s.ph) [] s)

/-- In every phase but FHOLD the sequencer has a step. -/
theorem exists_seqStep {s : State} (h : s.ph ≠ Ph.fhold) : ∃ t, sequencerTurn s = .next t ∧ SeqStep s t := by
  rcases phase_cases s.ph with e | e | e | e | e | e | e | e | e | e | e | e
  · exact ⟨_, (sequencerTurn_bsample e).trans (exec_bsample s), .bsample e⟩
  · rw [sequencerTurn_data e]
    rcases execData_cases s with ⟨hfb, hx⟩ | ⟨b, u, l, hfb, hu, hl, hx⟩ | ⟨b, hfb, hnot, hx⟩ | ⟨b, u, hfb, hu, hnot, hx⟩
    · exact ⟨_, hx, .dataUnwritten e hfb⟩
    · exact ⟨_, hx, .dataPair e b u l hfb hu hl⟩
    · exact ⟨_, hx, .dataOob e b .up [] hfb (by simp) hnot⟩
    · exact ⟨_, hx, .dataOob e b .lo [u] hfb (by simpa using hu) hnot⟩
  · exact ⟨_, sequencerTurn_clkh e, .clkh e⟩
  · exact ⟨_, sequencerTurn_clkl e, .clkl e⟩
  · exact ⟨_, sequencerTurn_blank e, .blank e⟩
  · exact ⟨_, sequencerTurn_latl e, .latl e⟩
  · exact ⟨_, sequencerTurn_lwait e, .lwait e⟩
  · exact ⟨_, sequencerTurn_lath e, .lath e⟩
  · exact ⟨_, sequencerTurn_addr e, .addr e⟩
  · exact ⟨_, sequencerTurn_unblank e, .unblank e⟩
  · exact absurd e h
  · exact ⟨_, sequencerTurn_reserved e, .reserved e⟩

theorem ne_fhold_of_sequencerTurn {s t : State} (h : sequencerTurn s = .next t) : s.ph ≠ Ph.fhold :=
  fun hph => nomatch (sequencerTurn_fhold hph).symm.trans h

/-- The inversion of a step of the sequencer. -/
theorem seqStep_of_next {s t : State} (h : sequencerTurn s = .next t) : SeqStep s t := by
  obtain ⟨u, hu, hstep⟩ := exists_seqStep (ne_fhold_of_sequencerTurn h)
  obtain rfl : u = t := Host.Outcome.next.inj (hu.symm.trans h)
  exact hstep

/-- What one step of the machine can be: the sequencer's, a reset, or the bank writer's. -/
theorem step_cases {s t : State} (h : Machine.step s = .next t) :
    s.nextTurn = .sequencer ∧ SeqStep s.popTurn t ∨ s.nextTurn = .reset ∧ t = assertReset s.popTurn ∨
      (s.nextTurn ≠ .sequencer ∧ s.nextTurn ≠ .reset) ∧
        (t = s.popTurn ∨ t = Machine.bankWrite (s.bank + 1#2) s.popTurn) := by
  obtain ⟨-, hturn⟩ := step_next h
  by_cases hseq : s.nextTurn = .sequencer
  · rw [hseq] at hturn
    exact .inl ⟨hseq, seqStep_of_next hturn⟩
  by_cases hreset : s.nextTurn = .reset
  · rw [hreset] at hturn; injection hturn with hturn
    exact .inr (.inl ⟨hreset, hturn.symm⟩)
  · exact .inr (.inr ⟨⟨hseq, hreset⟩, step_next_bankWriter h hseq hreset⟩)

/-- The phases a step may leave are those of R100, FHOLD included. -/
theorem seqStep_phase_legal {s t : State} (h : SeqStep s t) :
    t.ph = Ph.bsample ∨ inShift t.ph ∨ inRowEnd t.ph ∨ t.ph = Ph.fhold := by
  cases h with
  | clkl _ => by_cases hc : s.col = 63#6 <;> simp [inShift, inRowEnd, hc]
  | unblank _ => by_cases hr : s.row = 15#4 <;> simp [inShift, inRowEnd, hr]
  | bsample | dataUnwritten | dataPair | dataOob | clkh | blank | latl | lwait | lath | addr | reserved =>
    simp [inShift, inRowEnd]

/-! ### Reserved codes -/

theorem phase_legal_iff : ∀ c : PhaseCode, (c = Ph.bsample ∨ inShift c ∨ inRowEnd c ∨ c = Ph.fhold) ↔
    ¬ (0xA ≤ c.toNat ∧ c.toNat ≤ 0xE) := by decide

theorem decodePhase_reserved_iff : ∀ c : PhaseCode, decodePhase c = .error (.reservedPhase c) ↔
    0xA ≤ c.toNat ∧ c.toNat ≤ 0xE := by decide

/-- FHOLD is entered by fault entry only. -/
theorem seqStep_fault_of_fhold {s t : State} (h : SeqStep s t) (hph : t.ph = Ph.fhold) :
    t.fault = true ∧ ∃ c : FaultCode, t.fcode = c.bits := by
  cases h with
  | dataUnwritten | reserved => exact ⟨rfl, .phase, rfl⟩
  | dataOob => exact ⟨rfl, .frameOob, rfl⟩
  | clkl _ => by_cases hc : s.col = 63#6 <;> simp [hc] at hph
  | unblank _ => by_cases hr : s.row = 15#4 <;> simp [hr] at hph
  | bsample | dataPair | clkh | blank | latl | lwait | lath | addr => simp at hph

/-- Settles O4: a reserved code is no phase a step leaves, and a port word with `we = 0` selects no operation. -/
theorem reservedWordsSelectNothing : Obligations.ReservedWordsSelectNothing := by
  refine ⟨fun c hlow hhigh => (decodePhase_reserved_iff c).2 ⟨hlow, hhigh⟩,
    fun s hlow hhigh => sequencerTurn_reserved ((decodePhase_reserved_iff s.ph).2 ⟨hlow, hhigh⟩),
    fun s t h => (phase_legal_iff t.ph).1 (seqStep_phase_legal (seqStep_of_next h)), fun wd => ?_⟩
  have hwe : ¬ portWe (portWord false wd) = true := by simp [portWe_portWord]
  exact ⟨if_neg hwe, fun s => by rw [bankPortTurn_eq, if_neg hwe]⟩

end Sys2Proof.Proofs


/-! The invariant of the scan: reset states satisfy it and every step keeps it (42_row_scan.md R173, R176, R178;
70_reset_and_hazards.md R263 to R266). Each group of clauses has a lemma over the ways a sequencer step can go; a bank
write changes no field the invariant reads. -/

namespace Sys2Proof.Proofs

open Sys2Proof.Machine Sys2Proof.Laws

theorem seqStep_mem_cfg {s t : State} (h : SeqStep s t) : t.mem = s.mem ∧ t.cfg = s.cfg := by
  cases h <;> exact ⟨rfl, rfl⟩

/-- The invariant knows no reserved code. -/
theorem inv_phase_not_reserved {s : State} (hinv : Inv s) : decodePhase s.ph ≠ .error (.reservedPhase s.ph) := by
  rw [Ne, decodePhase_reserved_iff]
  exact (phase_legal_iff s.ph).1 hinv.phLegal

/-! ### The clauses over a step of the sequencer -/

section
variable {s t : State} (hinv : Inv s) (h : SeqStep s t)
include hinv h

theorem seqStep_fault : (t.fault = true ↔ t.ph = Ph.fhold) ∧
    t.fcode = if t.fault then FaultCode.frameOob.bits else fcodeNone := by
  have hfault := hinv.faultIffHold
  have hcode := hinv.fcodeOk
  cases h with
  | clkl hph => by_cases hc : s.col = 63#6 <;> simp_all
  | unblank hph => by_cases hr : s.row = 15#4 <;> simp_all
  | dataUnwritten hph hfb => exact absurd hfb (hinv.fbWritten (by simp [hph]))
  | reserved hph => exact absurd hph (inv_phase_not_reserved hinv)
  | dataOob => simp
  | bsample hph | dataPair hph | clkh hph | blank hph | latl hph | lwait hph | lath hph | addr hph => simp_all

theorem seqStep_fbWritten : t.fb ≠ none := by
  cases h with
  | bsample hph => simp
  | dataUnwritten hph hfb => exact absurd hfb (hinv.fbWritten (by simp [hph]))
  | reserved hph => exact absurd hph (inv_phase_not_reserved hinv)
  | dataPair hph | dataOob hph | clkh hph | clkl hph | blank hph | latl hph | lwait hph | lath hph | addr hph
  | unblank hph => exact hinv.fbWritten (by simp [hph])

theorem seqStep_position_zero : (t.ph = Ph.bsample ∨ inRowEnd t.ph → t.col = 0#6) ∧
    (t.ph = Ph.bsample → t.row = 0#4) := by
  have hcol := hinv.colZero
  cases h with
  | clkl hph => by_cases hc : s.col = 63#6 <;> simp [inRowEnd, hc]
  | unblank hph => by_cases hr : s.row = 15#4 <;> simp_all [inRowEnd]
  | bsample | dataUnwritten | dataPair | dataOob | clkh | reserved => simp [inRowEnd]
  | blank hph | latl hph | lwait hph | lath hph | addr hph => simp_all [inRowEnd]

theorem seqStep_clk : (t.ph = Ph.clkl → t.line .clk = true) ∧
    ((t.ph = Ph.data ∨ t.ph = Ph.clkh) ∧ t.col ≠ 0#6 ∨ inRowEnd t.ph → t.line .clk = false) := by
  have hlow := hinv.clkLow
  cases h with
  | clkl hph => by_cases hc : s.col = 63#6 <;> simp [hc]
  | unblank hph =>
    have hcol := hinv.colZero (.inr (by simp [inRowEnd, hph]))
    by_cases hr : s.row = 15#4 <;> simp [inRowEnd, hr, hcol]
  | clkh => simp [inRowEnd]
  | bsample | dataUnwritten | dataOob | reserved => simp [inRowEnd]
  | dataPair hph | blank hph | latl hph | lwait hph | lath hph => simp_all [inRowEnd, lineOf_out]
  | addr hph => simp_all [inRowEnd, addrWrites, lineOf_out]

theorem seqStep_dataStable : t.ph = Ph.clkh ∨ t.ph = Ph.clkl → ∃ b, t.fb = some b ∧
    pixelBit t.cfg.tbo t.mem b (bitPosUp t.row.toNat t.col.toNat) = some (t.line .gUp) ∧
    pixelBit t.cfg.tbo t.mem b (bitPosLo t.row.toNat t.col.toNat) = some (t.line .gLo) := by
  cases h with
  | dataPair hph b u l hfb hu hl =>
    exact fun _ => ⟨b, hfb, by simpa using pixelBit_of_read hu, by simpa using pixelBit_of_read hl⟩
  | clkh hph =>
    intro _
    obtain ⟨b, hfb, hu, hl⟩ := hinv.dataStable (.inl hph)
    exact ⟨b, hfb, by simpa [lineOf_out] using hu, by simpa [lineOf_out] using hl⟩
  | clkl hph => by_cases hc : s.col = 63#6 <;> simp [hc]
  | unblank hph => by_cases hr : s.row = 15#4 <;> simp [hr]
  | bsample | dataUnwritten | dataOob | blank | latl | lwait | lath | addr | reserved => simp

theorem seqStep_oe : (inRowEnd t.ph ∧ t.ph ≠ Ph.blank → t.line .oe = true) ∧
    ((inShift t.ph ∨ t.ph = Ph.blank) ∧ t.row ≠ 0#4 → t.line .oe = false) := by
  have hhigh := hinv.oeBlank
  have hlow := hinv.oeShift
  cases h with
  | clkl hph => by_cases hc : s.col = 63#6 <;> simp_all [inRowEnd, inShift, lineOf_out]
  | unblank hph => by_cases hr : s.row = 15#4 <;> simp [inRowEnd, inShift, hr]
  | blank => simp [inRowEnd, inShift]
  | bsample | dataUnwritten | dataOob | reserved => simp [inRowEnd, inShift]
  | dataPair hph | clkh hph | latl hph | lwait hph | lath hph => simp_all [inRowEnd, inShift, lineOf_out]
  | addr hph => simp_all [inRowEnd, inShift, addrWrites, lineOf_out]

theorem seqStep_lat : (t.ph = Ph.lwait ∨ t.ph = Ph.lath → t.line .lat = false) ∧
    (t.ph = Ph.addr ∨ t.ph = Ph.unblank ∨
      (inShift t.ph ∨ t.ph = Ph.blank ∨ t.ph = Ph.latl) ∧ t.row ≠ 0#4 → t.line .lat = true) := by
  have hlow := hinv.latLow
  have hhigh := hinv.latHigh
  cases h with
  | clkl hph => by_cases hc : s.col = 63#6 <;> simp_all [inShift, lineOf_out]
  | unblank hph => by_cases hr : s.row = 15#4 <;> simp_all [inShift, lineOf_out]
  | latl | lath => simp [inShift]
  | bsample | dataUnwritten | dataOob | reserved => simp [inShift]
  | dataPair hph | clkh hph | blank hph | lwait hph => simp_all [inShift, lineOf_out]
  | addr hph => simp_all [addrWrites, lineOf_out]

theorem seqStep_addr : (t.ph = Ph.unblank → addrOf t.out = t.row) ∧
    ((inShift t.ph ∨ inRowEnd t.ph ∧ t.ph ≠ Ph.unblank) ∧ t.row ≠ 0#4 → addrOf t.out = t.row - 1#4) := by
  have hnow := hinv.addrNow
  have hbefore := hinv.addrBefore
  cases h with
  | clkl hph => by_cases hc : s.col = 63#6 <;> simp_all [inRowEnd, inShift, addr_setLine]
  | unblank hph => by_cases hr : s.row = 15#4 <;> simp_all [inRowEnd, inShift, addr_setLine]
  | addr => simp [inRowEnd, inShift]
  | bsample | dataUnwritten | dataOob | reserved => simp [inRowEnd, inShift]
  | dataPair hph | clkh hph | blank hph | latl hph | lwait hph | lath hph =>
    simp_all [inRowEnd, inShift, addr_setLine]

end

/-- Every step of the sequencer keeps the invariant. -/
theorem inv_seqStep {s t : State} (hinv : Inv s) (h : SeqStep s t)
    (hlow : ∀ l : Line, l.driven = false → t.line l = false) : Inv t where
  memWf := (seqStep_mem_cfg h).1 ▸ hinv.memWf
  undrivenLow := hlow
  phLegal := seqStep_phase_legal h
  faultIffHold := (seqStep_fault hinv h).1
  fcodeOk := (seqStep_fault hinv h).2
  fbWritten _ := seqStep_fbWritten hinv h
  colZero := (seqStep_position_zero hinv h).1
  rowZero := (seqStep_position_zero hinv h).2
  clkHigh := (seqStep_clk hinv h).1
  clkLow := (seqStep_clk hinv h).2
  dataStable := seqStep_dataStable hinv h
  oeBlank := (seqStep_oe hinv h).1
  oeShift := (seqStep_oe hinv h).2
  latLow := (seqStep_lat hinv h).1
  latHigh := (seqStep_lat hinv h).2
  addrNow := (seqStep_addr hinv h).1
  addrBefore := (seqStep_addr hinv h).2

/-! ### Reset and the bank writer -/

/-- At BSAMPLE without a fault the invariant says nothing of the driven lines. -/
theorem inv_of_bsample {s : State} (hmem : s.mem.wf = true) (hlow : ∀ l : Line, l.driven = false → s.line l = false)
    (hph : s.ph = Ph.bsample) (hfault : s.fault = false) (hcode : s.fcode = fcodeNone) (hrow : s.row = 0#4)
    (hcol : s.col = 0#6) : Inv s := by
  constructor <;> simp_all [inShift, inRowEnd]

/-- The reset state of any parameters satisfies the invariant. -/
theorem inv_powerOn (cfg : Config) (mem : Memory) (ts : List Turn) (hmem : mem.wf = true) : Inv (powerOn cfg mem ts) :=
  inv_of_bsample hmem (fun _ hl => assertReset_line_undriven (powerOn cfg mem ts) hl) rfl rfl rfl rfl rfl

/-- The invariant reads neither BANK, nor the record, nor the schedule. -/
theorem inv_congr {s t : State} (hinv : Inv s)
    (h : { s with bank := t.bank, hist := t.hist, sched := t.sched } = t) : Inv t := by
  rw [← h]
  exact { hinv with }

theorem inv_assertReset {s : State} (hinv : Inv s) : Inv (assertReset s) :=
  inv_of_bsample hinv.memWf (fun _ hl => assertReset_line_undriven s hl) rfl rfl rfl rfl rfl

/-- Settles O47: the step of the sequencer, clause by clause; a reset; and a bank write. -/
theorem stepKeepsTheInvariant : Obligations.StepKeepsTheInvariant := by
  intro s t hinv h
  have hlow : ∀ l : Line, l.driven = false → t.line l = false :=
    fun _ => step_keeps_undriven_low h hinv.undrivenLow
  have hpop : Inv s.popTurn := inv_congr hinv rfl
  rcases step_cases h with ⟨-, hstep⟩ | ⟨-, rfl⟩ | ⟨-, rfl | rfl⟩
  · exact inv_seqStep hpop hstep hlow
  · exact inv_assertReset hpop
  · exact hpop
  · exact inv_congr hpop rfl

/-- Settles O46: a reset state stands at BSAMPLE, and State.reset is one of them. -/
theorem resetStatesSatisfyTheInvariant : Obligations.ResetStatesSatisfyTheInvariant :=
  ⟨reset_eq_powerOn ▸ inv_powerOn _ _ _ reset_mem_wf, inv_powerOn⟩

end Sys2Proof.Proofs


/-! The decoder of 41_decode.md: positions, offsets and addresses in closed form, the exact bound on TBO, and the order
in which the decode reads the asset's bit stream. -/

namespace Sys2Proof.Proofs

open Sys2Proof.Machine Sys2Proof.Laws

/-! ### Byte and bit offsets -/

@[simp] theorem byteOff_bitPosUp (r c : Nat) : byteOff (bitPosUp r c) = 8 * r + c / 8 := by
  unfold byteOff bitPosUp; omega

@[simp] theorem byteOff_bitPosLo (r c : Nat) : byteOff (bitPosLo r c) = 16 * r + c / 8 := by
  unfold byteOff bitPosLo; omega

@[simp] theorem bitOff_bitPosUp (r c : Nat) : bitOff (bitPosUp r c) = c % 8 := by
  unfold bitOff bitPosUp; omega

@[simp] theorem bitOff_bitPosLo (r c : Nat) : bitOff (bitPosLo r c) = c % 8 := by
  unfold bitOff bitPosLo; omega

/-- A bit position is a byte offset and a bit offset (41_decode.md R132). -/
theorem byteOff_bitOff (p : Nat) : 8 * byteOff p + bitOff p = p ∧ bitOff p < 8 :=
  ⟨Nat.div_add_mod p 8, Nat.mod_lt p (by decide)⟩

/-- Settles O24: the value of a concatenation, and the two halves of COL as its quotient and remainder by 8. -/
theorem bitPositionsAreConcatenations : Obligations.BitPositionsAreConcatenations := by
  intro r c
  have hhigh : (c.extractLsb' 3 3).toNat = c.toNat / 8 := by
    have := c.isLt
    rw [BitVec.extractLsb'_toNat, Nat.shiftRight_eq_div_pow]; omega
  have hlow : (c.extractLsb' 0 3).toNat = c.toNat % 8 := by
    rw [BitVec.extractLsb'_toNat, Nat.shiftRight_zero]
  rw [byteOff_bitPosUp, byteOff_bitPosLo, bitOff_bitPosUp, bitOff_bitPosLo, hlow]
  simp only [toNat_append_eq_mul_add, hhigh, bitPosUp, bitPosLo, BitVec.toNat_zero, and_true]
  omega

/-- Settles O26: an offset below 128 is the upper plane's, and one from 128 on is in the first half of a lower row. -/
theorem byteOffsetsOfAFrame : Obligations.ByteOffsetsOfAFrame := by
  refine ⟨fun k => ⟨?_, ?_⟩, fun r c hr hc => ?_, by decide +kernel⟩
  · rintro ⟨r, c, pl, hr, hc, rfl⟩
    cases pl <;> simp only [bitPos, byteOff_bitPosUp, byteOff_bitPosLo] <;> omega
  · rintro ⟨hk, hlow | hhalf⟩
    · exact ⟨k / 8, 8 * (k % 8), .up, by omega, by omega, by simp only [bitPos, byteOff_bitPosUp]; omega⟩
    · exact ⟨k / 16, 8 * (k % 16), .lo, by omega, by omega, by simp only [bitPos, byteOff_bitPosLo]; omega⟩
  · rw [byteOff_bitPosUp, byteOff_bitPosLo]
    omega

/-- Settles O27: a column is below 64, so a position is read back as row and column by division. -/
theorem positionsAreDistinctWithinAPlane : Obligations.PositionsAreDistinctWithinAPlane := by
  refine ⟨fun pl r c r' c' hr hc hr' hc' h => ?_, fun r c r' c' hr hc hr' hc' => ?_⟩
  · cases pl <;> simp only [bitPos, bitPosUp, bitPosLo] at h <;> omega
  · unfold bitPosUp bitPosLo
    omega

/-! ### Addresses -/

theorem pixelAddr_bitPosUp (tbo : Int) (r c : Nat) :
    pixelAddr tbo (bitPosUp r c) = 59 + tbo - 8 * r - (c / 8 : Nat) := by
  rw [pixelAddr, byteIdx, byteOff_bitPosUp]
  show (59 : Int) + _ = _
  push_cast; omega

theorem pixelAddr_bitPosLo (tbo : Int) (r c : Nat) :
    pixelAddr tbo (bitPosLo r c) = 59 + tbo - 16 * r - (c / 8 : Nat) := by
  rw [pixelAddr, byteIdx, byteOff_bitPosLo]
  show (59 : Int) + _ = _
  push_cast; omega

/-- Settles O25: from the byte offsets, 128 being twice 64. -/
theorem pixelAddressClosedForms : Obligations.PixelAddressClosedForms := by
  intro tbo r c hr hc
  refine ⟨?_, ?_, pixelAddr_bitPosUp tbo r c, pixelAddr_bitPosLo tbo r c, bitOff_bitPosUp r c, bitOff_bitPosLo r c, ?_⟩
  · rw [byteIdx, byteOff_bitPosUp]; omega
  · rw [byteIdx, byteOff_bitPosLo]; omega
  · rw [byteIdx, byteOff_bitPosUp]
    unfold bitPosUp bitPosLo
    omega

/-! ### The bound on TBO -/

theorem admit_iff (m : Memory) (b : Bank) (a : Int) : Admit m b a ↔ 59 ≤ a ∧ a ≤ ((m.frame b).len : Int) - 1 :=
  and_iff_right (by have := b.isLt; simp only [NBANKS]; omega)

/-- The highest address a frame reads is that of the upper pixel (0, 0), the lowest that of the lower (15, 63). -/
theorem tboInBound_iff (tbo : Int) (m : Memory) (b : Bank) :
    (∀ (pl : Plane) (r c : Nat), r < 16 → c < 64 → Admit m b (pixelAddr tbo (bitPos pl r c))) ↔
      TboInBound tbo m b := by
  constructor
  · intro h
    have hhigh := (admit_iff ..).1 (h .up 0 0 (by decide) (by decide))
    have hlow := (admit_iff ..).1 (h .lo 15 63 (by decide) (by decide))
    rw [bitPos, pixelAddr_bitPosUp] at hhigh
    rw [bitPos, pixelAddr_bitPosLo] at hlow
    show 247 ≤ tbo ∧ tbo ≤ ((m.frame b).len : Int) - 1 - 59
    omega
  · rintro ⟨hlow, hhigh⟩ pl r c hr hc
    simp only [HDR_OFF] at hhigh
    rw [admit_iff]
    cases pl
    · rw [bitPos, pixelAddr_bitPosUp]; omega
    · rw [bitPos, pixelAddr_bitPosLo]; omega

/-- Under the length invariant every TBO from 247 to 255 is in the bound. -/
theorem tboInBound_of_framesAdmitted {tbo : Int} {m : Memory} (b : Bank) (hm : framesAdmitted m) (hlow : 247 ≤ tbo)
    (hhigh : tbo ≤ 255) : TboInBound tbo m b := by
  have hlen := (framesAdmitted_iff m).1 hm b
  simp only [TboInBound, HDR_OFF]
  omega

/-! ### Pixel reads -/

@[simp] theorem testBit_eq_getLsbD (byte : Byte) (offset : Nat) : testBit byte offset = byte.getLsbD offset := by
  simp [testBit]

theorem pixelRead_of_admit {tbo : Int} {m : Memory} {b : Bank} {p : Nat} (h : Admit m b (pixelAddr tbo p)) :
    pixelRead tbo m b p = some ⟨b, (pixelAddr tbo p).toNat, readPort m b (pixelAddr tbo p).toNat,
      (readPort m b (pixelAddr tbo p).toNat).getLsbD (bitOff p)⟩ :=
  pixelRead_eq_some_iff.2 ⟨h, by rw [testBit_eq_getLsbD]⟩

theorem admit_of_pixelRead {tbo : Int} {m : Memory} {b : Bank} {p : Nat} {r : PixelRead}
    (h : pixelRead tbo m b p = some r) : Admit m b (pixelAddr tbo p) := (pixelRead_eq_some_iff.1 h).1

/-- Settles O29: an admitted byte index is not negative, so stream position `8*TBO + 7 - p` is in the byte that p reads,
at the mirrored bit. -/
theorem decodeReadsTheStreamInReverse : Obligations.DecodeReadsTheStreamInReverse := by
  intro tbo m b p h
  obtain ⟨hlow, -⟩ := (admit_iff ..).1 h
  obtain ⟨hp, hoff⟩ := byteOff_bitOff p
  have haddr : pixelAddr tbo p = 59 + (tbo - byteOff p) := rfl
  refine ⟨?_, by rw [byteIdx]; omega⟩
  have hbyte : (pixelAddr tbo p).toNat = HDR_OFF + (8 * tbo + 7 - p).toNat / 8 := by
    show _ = 59 + _; omega
  have hbit : bitOff p = 7 - (8 * tbo + 7 - p).toNat % 8 := by omega
  rw [pixelBit_of_read (pixelRead_of_admit h), streamBit, ← hbyte, ← hbit]

/-- Settles O30: FrameRead is decided by Admit, and a Bank Index is always below NBANKS. -/
theorem frameReadAdmitsThePixelRegion : Obligations.FrameReadAdmitsThePixelRegion := by
  intro m b a
  refine ⟨fun hlow hhigh => frameRead_eq_some_iff.2 ⟨(admit_iff m b a).2 ⟨hlow, hhigh⟩, rfl⟩, fun h => ?_, fun h => ?_⟩ <;>
  · rw [frameRead_eq_none_iff, admit_iff]
    omega

end Sys2Proof.Proofs


/-! DATA (42_row_scan.md R162, 60_exceptions.md R221 and R227): its successor as a function of what Decode answers, the
two faults in their order, and that it reads Frame FB alone. -/

namespace Sys2Proof.Proofs

open Sys2Proof.Machine Sys2Proof.Laws

/-- What DATA makes of the decoder's answer for bank `b`. -/
def dataNext (b : Bank) (s : State) : DecodeResult → State
  | .pair u l => State.complete [u.event, l.event] [(.gUp, u.bit), (.gLo, l.bit)] { s with ph := Ph.clkh }
  | .oob made pl a => raiseFault .frameOob (.read pl b a) (made.map PixelRead.event) s

theorem exec_data_unwritten {s : State} (h : s.fb = none) :
    exec .data s = .next (raiseFault .phase (.phase s.ph) [] s) := by
  show execData s = _
  rw [execData, h]

theorem exec_data_eq {s : State} {b : Bank} (h : s.fb = some b) :
    exec .data s = .next (dataNext b s (decodePixels s.cfg.tbo s.mem b s.row.toNat s.col.toNat)) := by
  show execData s = _
  unfold execData
  split
  · next hnone => nomatch h.symm.trans hnone
  · next b' hsome =>
    obtain rfl : b = b' := Option.some.inj (h.symm.trans hsome)
    split <;> (next hd => rw [hd]; rfl)

/-! ### Decode by what is admitted -/

theorem decodePixels_pair {tbo : Int} {m : Memory} {b : Bank} {r c : Nat} {u l : PixelRead}
    (hu : pixelRead tbo m b (bitPosUp r c) = some u) (hl : pixelRead tbo m b (bitPosLo r c) = some l) :
    decodePixels tbo m b r c = .pair u l := by
  simp only [decodePixels, hu, hl]

theorem decodePixels_upper_oob {tbo : Int} {m : Memory} {b : Bank} {r c : Nat}
    (h : ¬ Admit m b (pixelAddr tbo (bitPosUp r c))) :
    decodePixels tbo m b r c = .oob [] .up (pixelAddr tbo (bitPosUp r c)) := by
  simp only [decodePixels, pixelRead_eq_none_iff.2 h]

theorem decodePixels_lower_oob {tbo : Int} {m : Memory} {b : Bank} {r c : Nat} {u : PixelRead}
    (hu : pixelRead tbo m b (bitPosUp r c) = some u) (h : ¬ Admit m b (pixelAddr tbo (bitPosLo r c))) :
    decodePixels tbo m b r c = .oob [u] .lo (pixelAddr tbo (bitPosLo r c)) := by
  simp only [decodePixels, hu, pixelRead_eq_none_iff.2 h]

/-- Decode reads one Frame. -/
theorem decodePixels_congr_frame {m m' : Memory} {b : Bank} (h : m'.frame b = m.frame b) (tbo : Int) (r c : Nat) :
    decodePixels tbo m' b r c = decodePixels tbo m b r c := by
  have hread : ∀ p, pixelRead tbo m' b p = pixelRead tbo m b p := by
    intro p; simp only [pixelRead, frameRead, Admit, readPort, h]
  simp only [decodePixels, hread]

theorem exec_data_pair {s : State} {b : Bank} {u l : PixelRead} (hfb : s.fb = some b)
    (hu : pixelRead s.cfg.tbo s.mem b (bitPosUp s.row.toNat s.col.toNat) = some u)
    (hl : pixelRead s.cfg.tbo s.mem b (bitPosLo s.row.toNat s.col.toNat) = some l) :
    exec .data s = .next (dataNext b s (.pair u l)) := by
  rw [exec_data_eq hfb, decodePixels_pair hu hl]

/-- Under the bound of 41_decode.md R141 both reads are made, whatever ROW and COL are. -/
theorem exec_data_of_bound {s : State} {b : Bank} (hfb : s.fb = some b) (hbound : TboInBound s.cfg.tbo s.mem b) :
    ∃ u l, pixelRead s.cfg.tbo s.mem b (bitPosUp s.row.toNat s.col.toNat) = some u ∧
      pixelRead s.cfg.tbo s.mem b (bitPosLo s.row.toNat s.col.toNat) = some l ∧
      exec .data s = .next (dataNext b s (.pair u l)) := by
  have hu := pixelRead_of_admit (admit_of_bound hbound .up s.row s.col)
  have hl := pixelRead_of_admit (admit_of_bound hbound .lo s.row s.col)
  exact ⟨_, _, hu, hl, exec_data_pair hfb hu hl⟩

/-! ### The settled statements -/

/-- Settles O7: under the bound both reads are admitted, and row 0 has one address for both planes. -/
theorem dataDrivesTheDecodedPair : Obligations.DataDrivesTheDecodedPair := by
  refine ⟨rfl, fun s b hfb hbound => ?_⟩
  have haddrUp : pixelAddr s.cfg.tbo (bitPosUp s.row.toNat s.col.toNat)
      = 59 + s.cfg.tbo - 8 * s.row.toNat - s.col.toNat / 8 := pixelAddr_bitPosUp ..
  have haddrLo : pixelAddr s.cfg.tbo (bitPosLo s.row.toNat s.col.toNat)
      = 59 + s.cfg.tbo - 16 * s.row.toNat - s.col.toNat / 8 := pixelAddr_bitPosLo ..
  have hu := pixelRead_of_admit (admit_of_bound hbound .up s.row s.col)
  have hl := pixelRead_of_admit (admit_of_bound hbound .lo s.row s.col)
  have hpair := exec_data_pair hfb hu hl
  simp only [bitPos, bitOff_bitPosUp, bitOff_bitPosLo, haddrUp, haddrLo] at hpair
  refine ⟨_, _, hpair, rfl, ?_, ?_, ?_, ?_, .refl _, ?_⟩
  · simp [dataNext]
  · simp [dataNext]
  · intro x hup hlo
    simp [dataNext, hup, hlo, lineOf_out]
  · intro hrow
    simp [hrow]
  · exact fun _ _ => rfl

/-- Settles O8: DATA by the first of the three conditions that fails. -/
theorem dataTakesItsFaultsInOrder : Obligations.DataTakesItsFaultsInOrder := by
  refine ⟨fun s hfb => exec_data_unwritten hfb, fun s b hfb => ⟨fun hup => ?_, fun hup hlo => ?_⟩⟩
  · rw [exec_data_eq hfb, decodePixels_upper_oob hup]; rfl
  · rw [exec_data_eq hfb, decodePixels_lower_oob (pixelRead_of_admit hup) hlo]; rfl

/-- A pixel whose read is not admitted makes DATA fault with FRAME_OOB, whichever plane it is of. -/
theorem exec_data_oob {s : State} {b : Bank} (hfb : s.fb = some b) {pl : Plane}
    (h : ¬ Admit s.mem b (pixelAddr s.cfg.tbo (bitPos pl s.row.toNat s.col.toNat))) :
    ∃ t, exec .data s = .next t ∧ t.fault = true ∧ t.fcode = 2#2 := by
  refine ⟨_, exec_data_eq hfb, ?_⟩
  rcases decodePixels_cases s.cfg.tbo s.mem b s.row.toNat s.col.toNat with
    ⟨u, l, hu, hl, -⟩ | ⟨-, hd⟩ | ⟨u, -, -, hd⟩
  · cases pl
    · exact absurd (admit_of_pixelRead hu) h
    · exact absurd (admit_of_pixelRead hl) h
  · rw [hd]; exact ⟨rfl, rfl⟩
  · rw [hd]; exact ⟨rfl, rfl⟩

/-- Settles O28: the bound says that every read is admitted, so outside it some read is not, and its DATA faults. -/
theorem tboBoundIsExact : Obligations.TboBoundIsExact := by
  refine ⟨tboInBound_iff, fun _ _ b => tboInBound_of_framesAdmitted b, fun s b hfb hout => ?_⟩
  rw [← tboInBound_iff] at hout
  push Not at hout
  obtain ⟨pl, r, c, hr, hc, hnot⟩ := hout
  have hrow : (BitVec.ofNat 4 r).toNat = r := Nat.mod_eq_of_lt hr
  have hcol : (BitVec.ofNat 6 c).toNat = c := Nat.mod_eq_of_lt hc
  exact ⟨BitVec.ofNat 4 r, BitVec.ofNat 6 c,
    exec_data_oob (s := { s with row := BitVec.ofNat 4 r, col := BitVec.ofNat 6 c }) hfb (pl := pl)
      (by simpa only [hrow, hcol] using hnot)⟩

/-- Settles O42: Decode of two stores with the same Frame FB is the same, and DATA reads nothing else of them. -/
theorem dataReadsOnlyTheSampledFrame : Obligations.DataReadsOnlyTheSampledFrame := by
  intro s b m v hfb hframe t h
  rw [exec_data_eq hfb] at h; injection h with h; subst h
  rw [exec_data_eq (s := { s with mem := m, bank := v }) hfb]
  simp only [decodePixels_congr_frame hframe]
  cases decodePixels s.cfg.tbo s.mem b s.row.toNat s.col.toNat <;> rfl

end Sys2Proof.Proofs


/-! The event history (10_state.md R48): what a step records is legal, and no step reads what is recorded. -/

namespace Sys2Proof.Proofs

open Sys2Proof.Machine Sys2Proof.Laws

/-! ### Legality of the record -/

/-- Every event of a list is one the block may make. -/
abbrev LegalEvents (tbo : Int) (m : Memory) (es : List Event) : Prop := ∀ e ∈ es, e.legal tbo m

/-- A pixel read records the stored byte of an admitted address (20_memory.md R72). -/
theorem legal_pixelRead {tbo : Int} {m : Memory} {b : Bank} {p : Nat} {r : PixelRead}
    (h : pixelRead tbo m b p = some r) : r.event.legal tbo m := by
  obtain ⟨hadmit, rfl⟩ := pixelRead_eq_some_iff.1 h
  have hnonneg : ((pixelAddr tbo p).toNat : Int) = pixelAddr tbo p :=
    Int.toNat_of_nonneg (by have := ((admit_iff ..).1 hadmit).1; omega)
  exact ⟨hnonneg.symm ▸ hadmit, rfl⟩

theorem legal_writeEvents {tbo : Int} {m : Memory} {ws : List (Line × Level)} (h : ∀ w ∈ ws, w.1.driven = true) :
    LegalEvents tbo m (writeEvents ws) := by
  intro e he
  obtain ⟨w, hw, rfl⟩ := List.mem_map.1 he
  exact h w hw

/-- The record of a sequencer step is legal in the state it started from. -/
theorem seqStep_record_legal {s t : State} (h : SeqStep s t) :
    ∃ es, t.hist = es :: s.hist ∧ LegalEvents s.cfg.tbo s.mem es := by
  cases h with
  | bsample _ =>
    have hbank : s.bank.toNat < NBANKS := s.bank.isLt
    exact ⟨_, rfl, List.forall_mem_singleton.2 hbank⟩
  | dataUnwritten | reserved => exact ⟨_, rfl, List.forall_mem_singleton.2 rfl⟩
  | dataPair _ b u l _ hu hl =>
    refine ⟨_, rfl, List.forall_mem_append.2 ⟨?_, legal_writeEvents (by simp [Line.driven])⟩⟩
    simpa using ⟨legal_pixelRead hu, legal_pixelRead hl⟩
  | dataOob _ b pl made _ hmade hnot =>
    refine ⟨_, rfl, List.forall_mem_append.2 ⟨?_, List.forall_mem_singleton.2 ⟨pl, b, rfl, hnot⟩⟩⟩
    intro e he
    obtain ⟨r, hr, rfl⟩ := List.mem_map.1 he
    exact legal_pixelRead (hmade r hr)
  | addr _ => exact ⟨_, rfl, legal_writeEvents (by simp [addrWrites, Line.driven])⟩
  | clkh | clkl | blank | latl | lwait | lath | unblank =>
    exact ⟨_, rfl, legal_writeEvents (by simp [Line.driven])⟩

/-- A new list of legal events keeps the history legal, the store and TBO being constant. -/
theorem traceLegal_cons {s t : State} {es : List Event} (hs : s.traceLegal) (hhist : t.hist = es :: s.hist)
    (hes : LegalEvents s.cfg.tbo s.mem es) (hmem : t.mem = s.mem) (hcfg : t.cfg = s.cfg) : t.traceLegal := by
  unfold State.traceLegal
  rw [hhist, hmem, hcfg]
  exact List.forall_mem_cons.2 ⟨hes, hs⟩

/-- Settles O48: a sequencer step adds a legal record, a bank write the event of that write, and a reset nothing. -/
theorem stepKeepsTheHistoryLegal : Obligations.StepKeepsTheHistoryLegal := by
  intro s t hs h
  rcases step_cases h with ⟨-, hstep⟩ | ⟨-, rfl⟩ | ⟨-, rfl | rfl⟩
  · obtain ⟨es, hhist, hes⟩ := seqStep_record_legal hstep
    obtain ⟨hmem, hcfg⟩ := seqStep_mem_cfg hstep
    exact traceLegal_cons (s := s) hs hhist hes hmem hcfg
  · exact hs
  · exact hs
  · exact traceLegal_cons (s := s) hs rfl (List.forall_mem_singleton.2 trivial) rfl rfl

/-! ### No step reads the record -/

/-- A move that adds the same events to every record and does the same beside. -/
def RecordsAlike (f : State → Host.Outcome State Fault Refusal) (s : State) : Prop :=
  ∀ t, f s = .next t → ∃ es, es.length ≤ 1 ∧ t.hist = es ++ s.hist ∧
    ∀ h, f { s with hist := h } = .next { t with hist := es ++ h }

/-- One list of events, added to any record. -/
theorem recordsAlike_of_cons {f : State → Host.Outcome State Fault Refusal} {s t : State} (es : List Event)
    (hs : f s = .next t) (hhist : t.hist = es :: s.hist)
    (h : ∀ h, f { s with hist := h } = .next { t with hist := es :: h }) : RecordsAlike f s := by
  intro u hu
  obtain rfl : t = u := Host.Outcome.next.inj (hs.symm.trans hu)
  exact ⟨[es], by simp, hhist, h⟩

theorem exec_data_recordsAlike (s : State) : RecordsAlike (exec .data) s := by
  cases hfb : s.fb with
  | none => exact recordsAlike_of_cons _ (exec_data_unwritten hfb) rfl fun h => exec_data_unwritten hfb
  | some b =>
    have hnext := fun h => exec_data_eq (s := { s with hist := h }) hfb
    cases hd : decodePixels s.cfg.tbo s.mem b s.row.toNat s.col.toNat <;>
      exact recordsAlike_of_cons _ (hnext s.hist) (by simp only [hd]; rfl) fun h => by
        rw [hnext h]; simp only [hd]; rfl

theorem exec_recordsAlike (i : Instr) (s : State) : RecordsAlike (exec i) s := by
  cases i with
  | data => exact exec_data_recordsAlike s
  | fhold => exact fun t h => nomatch h
  | bsample => exact recordsAlike_of_cons _ (exec_bsample s) rfl fun h => exec_bsample _
  | bwr | clkh | clkl | blank | latl | lwait | lath | addr | unblank =>
    exact recordsAlike_of_cons _ rfl rfl fun _ => rfl

theorem sequencerTurn_recordsAlike (s : State) : RecordsAlike sequencerTurn s := by
  cases hd : decodePhase s.ph with
  | ok i =>
    intro t h
    obtain ⟨es, hlen, hhist, hsame⟩ := exec_recordsAlike i s t ((sequencerTurn_of_decode hd).symm.trans h)
    exact ⟨es, hlen, hhist, fun h => (sequencerTurn_of_decode (s := { s with hist := h }) hd).trans (hsame h)⟩
  | error e => exact recordsAlike_of_cons _ (sequencerTurn_reserved hd) rfl fun h => sequencerTurn_reserved hd

theorem bankPortTurn_recordsAlike (w : PortWord) (s : State) : RecordsAlike (bankPortTurn w) s := by
  intro t h
  rw [bankPortTurn_eq] at h
  simp only [bankPortTurn_eq]
  split_ifs at h with hwe hen hk
  · injection h with h; subst h
    exact ⟨[_], by simp, rfl, fun h => by rw [if_pos hwe, if_pos hen, if_pos hk]; rfl⟩
  · injection h with h; subst h
    exact ⟨[], by simp, rfl, fun h => by rw [if_neg hwe]; rfl⟩

theorem takeTurn_recordsAlike (x : Turn) (s : State) : RecordsAlike (takeTurn x) s := by
  cases x with
  | sequencer => exact sequencerTurn_recordsAlike s
  | bankPort w => exact bankPortTurn_recordsAlike w s
  | press => exact bankPortTurn_recordsAlike (pressWord s) s
  | reset =>
    intro t h
    injection h with h; subst h
    exact ⟨[], by simp, rfl, fun _ => rfl⟩

/-- Settles O45: the step takes one move, and no move reads the record. -/
theorem historyIsNeverRead : Obligations.HistoryIsNeverRead := by
  intro s t h hstep
  obtain ⟨hframes, hturn⟩ := step_next hstep
  obtain ⟨es, hlen, hhist, hsame⟩ := takeTurn_recordsAlike s.nextTurn s.popTurn t hturn
  exact ⟨es, hlen, hhist, by rw [step_eq, if_pos hframes]; exact hsame h⟩

end Sys2Proof.Proofs


/-! The operations and their frame (42_row_scan.md R161, R167 and R173, 60_exceptions.md R222): BSAMPLE and LWAIT in
full, fault entry, what each of the twelve operations leaves unchanged, and the successor table. -/

namespace Sys2Proof.Proofs

open Sys2Proof.Machine Sys2Proof.Laws

/-! ### BSAMPLE, LWAIT and fault entry -/

/-- Settles O6: the Bank Index is below NBANKS, so BSAMPLE samples it as it stands. -/
theorem bsampleSamplesTheBank : Obligations.BsampleSamplesTheBank := by
  refine ⟨rfl, fun s => ⟨_, exec_bsample s, rfl⟩, fun v s hv => ⟨_, if_pos hv, .refl _⟩, fun _ => rfl, ?_, ?_⟩
  · intro s t hrow h
    rw [exec_unblank, hrow] at h; injection h with h; subst h
    exact decode_encode .bsample
  · intro d s t h
    exact ⟨_, exec_bsample t, congrArg some (bank_of_exec_bwr h)⟩

/-- Settles O11: LWAIT completes with no LineWrite. -/
theorem lwaitChangesOnlyThePhase : Obligations.LwaitChangesOnlyThePhase :=
  ⟨rfl, fun s => ⟨_, exec_lwait s, rfl, fun _ => rfl, rfl, List.reverse_cons⟩⟩

/-- Settles O33: the fields of `raiseFault`, and the FaultEvent at the end of the step's record. -/
theorem faultEntryIsPrecise : Obligations.FaultEntryIsPrecise := by
  intro c info reads s
  exact ⟨rfl, by cases c <;> rfl, rfl, rfl, rfl, rfl, rfl, fun _ => rfl, rfl, rfl, rfl, _, rfl,
    List.perm_append_singleton _ _⟩

/-! ### The frame of the twelve operations -/

/-- What no operation changes (60_exceptions.md R229), and that each records one list of events. -/
theorem exec_keeps {i : Instr} {s t : State} (h : exec i s = .next t) :
    t.mem = s.mem ∧ t.cfg = s.cfg ∧ t.sched = s.sched ∧ ∃ es, t.hist = es :: s.hist := by
  cases i with
  | data =>
    rcases execData_cases s with ⟨_, e⟩ | ⟨_, _, _, _, _, _, e⟩ | ⟨_, _, _, e⟩ | ⟨_, _, _, _, _, e⟩ <;>
      rw [e] at h <;> injection h with h <;> subst h <;> exact ⟨rfl, rfl, rfl, _, rfl⟩
  | fhold => nomatch h
  | bsample => rw [exec_bsample] at h; injection h with h; subst h; exact ⟨rfl, rfl, rfl, _, rfl⟩
  | clkh | clkl | blank | latl | lwait | lath | addr | unblank | bwr =>
    injection h with h; subst h; exact ⟨rfl, rfl, rfl, _, rfl⟩

/-- The lines an operation writes (42_row_scan.md §2). -/
def writtenLines : Instr → List Line
  | .data => [.gUp, .gLo]
  | .clkh => [.clk]
  | .clkl => [.clk]
  | .blank => [.oe]
  | .unblank => [.oe]
  | .latl => [.lat]
  | .lath => [.lat]
  | .addr => [.a, .b, .c, .d]
  | .bsample => []
  | .lwait => []
  | .fhold => []
  | .bwr _ => []

/-- A line that an operation does not write keeps its level. -/
theorem exec_line_of_notMem {i : Instr} {s t : State} (h : exec i s = .next t) {l : Line} (hl : l ∉ writtenLines i) :
    t.line l = s.line l := by
  cases i with
  | data =>
    rcases execData_cases s with ⟨_, e⟩ | ⟨_, _, _, _, _, _, e⟩ | ⟨_, _, _, e⟩ | ⟨_, _, _, _, _, e⟩ <;>
      rw [e] at h <;> injection h with h <;> subst h <;> simp_all [writtenLines, lineOf_out]
  | fhold => nomatch h
  | bsample => rw [exec_bsample] at h; injection h with h; subst h; rfl
  | clkh | clkl | blank | latl | lwait | lath | unblank | bwr =>
    injection h with h; subst h; simp_all [writtenLines, lineOf_out]
  | addr => injection h with h; subst h; simp_all [writtenLines, addrWrites, lineOf_out]

/-- The registers an operation writes (42_row_scan.md §2, 43_bank_select.md R202). -/
theorem exec_registers {i : Instr} {s t : State} (h : exec i s = .next t) :
    (t.fb ≠ s.fb → i = .bsample) ∧ (t.row ≠ s.row → i = .bsample ∨ i = .unblank) ∧
      (t.col ≠ s.col → i = .bsample ∨ i = .clkl) ∧ (t.bank ≠ s.bank → ∃ d, i = .bwr d) := by
  cases i with
  | data =>
    rcases execData_cases s with ⟨_, e⟩ | ⟨_, _, _, _, _, _, e⟩ | ⟨_, _, _, e⟩ | ⟨_, _, _, _, _, e⟩ <;>
      rw [e] at h <;> injection h with h <;> subst h <;> simp
  | fhold => nomatch h
  | bsample => rw [exec_bsample] at h; injection h with h; subst h; simp
  | clkh | clkl | blank | latl | lwait | lath | addr | unblank | bwr => injection h with h; subst h; simp

/-- FAULT and FCODE change by fault entry alone, which writes PH and the record beside them. -/
theorem exec_fault {i : Instr} {s t : State} (h : exec i s = .next t) (hf : t.fault ≠ s.fault ∨ t.fcode ≠ s.fcode) :
    i = .data ∧ t = { s with fault := true, fcode := t.fcode, ph := 0xF#4, hist := t.hist } := by
  cases i with
  | data =>
    refine ⟨rfl, ?_⟩
    rcases execData_cases s with ⟨_, e⟩ | ⟨_, _, _, _, _, _, e⟩ | ⟨_, _, _, e⟩ | ⟨_, _, _, _, _, e⟩ <;>
      rw [e] at h <;> injection h with h <;> subst h
    case inr.inl => simp at hf
    all_goals rfl
  | fhold => nomatch h
  | bsample => rw [exec_bsample] at h; injection h with h; subst h; simp at hf
  | clkh | clkl | blank | latl | lwait | lath | addr | unblank | bwr => injection h with h; subst h; simp at hf

/-- A line changes only under an operation that writes it. -/
theorem mem_writtenLines_of_ne {i : Instr} {s t : State} (h : exec i s = .next t) {l : Line} (hl : t.line l ≠ s.line l) :
    l ∈ writtenLines i := by_contra fun hnot => hl (exec_line_of_notMem h hnot)

theorem address_notMem_writtenLines {i : Instr} (hi : i ≠ .addr) : ∀ l ∈ [Line.a, .b, .c, .d], l ∉ writtenLines i := by
  cases i with
  | addr => exact absurd rfl hi
  | bwr _ => exact fun _ _ => List.not_mem_nil
  | bsample | data | clkh | clkl | blank | latl | lwait | lath | unblank | fhold => clear hi; decide

/-- Only ADDR writes the row address. -/
theorem exec_addrOf {i : Instr} {s t : State} (h : exec i s = .next t) (hne : addrOf t.out ≠ addrOf s.out) :
    i = .addr := by
  by_contra hi
  have hkeep : ∀ l ∈ [Line.a, .b, .c, .d], t.line l = s.line l :=
    fun l hl => exec_line_of_notMem h (address_notMem_writtenLines hi l hl)
  exact hne (addrOf_congr (hkeep .a (by decide)) (hkeep .b (by decide)) (hkeep .c (by decide)) (hkeep .d (by decide)))

/-- Settles O16: the constants, the lines through `writtenLines`, the registers and the fault status. -/
theorem operationsKeepWhatTheyDoNotName : Obligations.OperationsKeepWhatTheyDoNotName := by
  intro i s t h
  obtain ⟨hmem, hcfg, hsched, hhist⟩ := exec_keeps h
  obtain ⟨hfb, hrow, hcol, hbank⟩ := exec_registers h
  have hline : ∀ {l : Line}, t.line l ≠ s.line l → l ∈ writtenLines i := mem_writtenLines_of_ne h
  refine ⟨fun _ _ => by rw [hmem], hmem, hcfg, hsched, hhist, fun hl => ?_, fun hl => ?_, fun hl => ?_, exec_addrOf h,
    fun hl => ?_, hfb, hrow, hcol, hbank, exec_fault h⟩
  · have hw := hline hl; cases i <;> simp_all [writtenLines]
  · have hw := hline hl; cases i <;> simp_all [writtenLines]
  · have hw := hline hl; cases i <;> simp_all [writtenLines]
  · have hw : Line.gUp ∈ writtenLines i ∨ Line.gLo ∈ writtenLines i := hl.imp hline hline
    cases i <;> simp_all [writtenLines]

/-! ### The sequence -/

/-- Settles O17: the successor of each phase, and that no reserved code is written and FHOLD is entered by a fault. -/
theorem successorTable : Obligations.SuccessorTable := by
  intro s
  refine ⟨fun hph => ⟨_, (sequencerTurn_bsample hph).trans (exec_bsample s), rfl, rfl⟩, fun hph b hfb hadmit => ?_,
    fun hph => ⟨_, sequencerTurn_clkh hph, rfl, rfl⟩, fun hph hcol => ⟨_, sequencerTurn_clkl hph, ?_, rfl⟩,
    fun hph hcol => ⟨_, sequencerTurn_clkl hph, ?_, rfl⟩, ?_, fun hph hrow => ⟨_, sequencerTurn_unblank hph, ?_, rfl⟩,
    fun hph hrow => ⟨_, sequencerTurn_unblank hph, ?_, rfl⟩, fun hph t h => ne_fhold_of_sequencerTurn h hph, ?_⟩
  · have hpair := exec_data_pair hfb (pixelRead_of_admit (hadmit .up)) (pixelRead_of_admit (hadmit .lo))
    exact ⟨_, (sequencerTurn_data hph).trans hpair, rfl, rfl⟩
  · have hne : s.col ≠ 63#6 := by rintro hc; simp [hc] at hcol
    simp [State.position, hne]
  · have he : s.col = 63#6 := BitVec.eq_of_toNat_eq hcol
    simp [State.position, he]
  · intro x hx hph
    simp only [List.mem_cons, List.not_mem_nil, or_false] at hx
    obtain rfl | rfl | rfl | rfl | rfl := hx
    · exact ⟨_, sequencerTurn_blank hph, rfl, rfl⟩
    · exact ⟨_, sequencerTurn_latl hph, rfl, rfl⟩
    · exact ⟨_, sequencerTurn_lwait hph, rfl, rfl⟩
    · exact ⟨_, sequencerTurn_lath hph, rfl, rfl⟩
    · exact ⟨_, sequencerTurn_addr hph, rfl, rfl⟩
  · have hne : s.row ≠ 15#4 := by rintro hr; simp [hr] at hrow
    simp [State.position, hne]
  · have he : s.row = 15#4 := BitVec.eq_of_toNat_eq hrow
    simp [State.position, he]
  · intro t h
    have hstep := seqStep_of_next h
    exact ⟨(phase_legal_iff t.ph).1 (seqStep_phase_legal hstep), seqStep_fault_of_fhold hstep⟩

end Sys2Proof.Proofs


/-! The two agents (43_bank_select.md R203 and R204, 42_row_scan.md R179, 60_exceptions.md R223 and R225): where the
bank writer moves and what it writes, that the sequencer does not wait on it, and the word a step runs. -/

namespace Sys2Proof.Proofs

open Sys2Proof.Machine Sys2Proof.Laws

/-! ### The bank writer -/

/-- The word with `we = 1` and the contract's value is PRESS. -/
theorem takeTurn_bankPort_press (s : State) :
    takeTurn (.bankPort (portWord true (s.bank + 1#2))) s = takeTurn .press s := rfl

theorem press_of_enabled {s : State} (h : bankWriterEnabled s) :
    takeTurn .press s = .next (Machine.bankWrite (s.bank + 1#2) s) := by rw [press_eq, if_pos h]

theorem press_of_not_enabled {s : State} (h : ¬ bankWriterEnabled s) :
    takeTurn .press s = .fault .bankWriterNotEnabled := by rw [press_eq, if_neg h]

theorem bankPort_of_not_enabled {s : State} (h : ¬ bankWriterEnabled s) (d : Bank) :
    takeTurn (.bankPort (portWord true d)) s = .fault .bankWriterNotEnabled := by
  show bankPortTurn _ s = _
  rw [bankPortTurn_eq, if_pos (portWe_portWord true d), if_neg h]

theorem bankPort_outside_contract {s : State} {d : Bank} (hd : d ≠ s.bank + 1#2) (h : bankWriterEnabled s) :
    takeTurn (.bankPort (portWord true d)) s = .fault .bankWriterContract := by
  have hk : ¬ keepsContract (portWord true d) s := by rwa [keepsContract, portWd_portWord]
  show bankPortTurn _ s = _
  rw [bankPortTurn_eq, if_pos (portWe_portWord true d), if_pos h, if_neg hk]

/-- A move of the bank writer that completes is an admitted one: where it is not, the model stops. -/
theorem admittedTurn_of_next {s t : State} {x : Turn} (h : takeTurn x s = .next t) : admittedTurn s x := by
  cases x with
  | sequencer | reset => trivial
  | press =>
    by_contra hnot
    nomatch (press_of_not_enabled hnot).symm.trans h
  | bankPort w =>
    intro hw
    have h' : bankPortTurn w s = .next t := h
    rw [bankPortTurn_eq, if_pos hw] at h'
    split_ifs at h' with hen hk
    exact ⟨hen, hk⟩

theorem takeTurn_next_iff_admitted {s : State} {x : Turn} (hx : x ≠ .sequencer) :
    (∃ t, takeTurn x s = .next t) ↔ admittedTurn s x := by
  refine ⟨fun ⟨_, h⟩ => admittedTurn_of_next h, fun h => ?_⟩
  by_cases hreset : x = .reset
  · exact ⟨_, hreset ▸ takeTurn_reset s⟩
  · obtain ⟨t, ht, -⟩ := bankTurn_ok hx hreset h
    exact ⟨t, ht⟩

theorem bank_succ_toNat (b : Bank) : (b + 1#2).toNat = (b.toNat + 1) % 4 := BitVec.toNat_add b 1#2

theorem seqStep_bank {s t : State} (h : SeqStep s t) : t.bank = s.bank := by cases h <;> rfl

/-- Settles O38: the bank write of a step, the word of PRESS, and the two stops of a move that is not admitted. -/
theorem bankWriterHasNoMoveButPress : Obligations.BankWriterHasNoMoveButPress := by
  refine ⟨fun s t h hreset => ?_, fun s ts hs => ?_, fun s d => bankPort_outside_contract,
    fun s x => takeTurn_next_iff_admitted⟩
  · rcases step_cases h with ⟨-, hstep⟩ | ⟨hr, -⟩ | ⟨⟨hseq, -⟩, rfl | rfl⟩
    · exact .inl ((seqStep_bank hstep).trans (popTurn_bank s))
    · exact absurd hr hreset
    · exact .inl rfl
    · exact .inr ⟨hseq, bank_succ_toNat s.bank, rfl⟩
  · have hport : s.nextTurn = .bankPort (portWord true (s.bank + 1#2)) := by rw [State.nextTurn, hs]; rfl
    have htail : s.popTurn = { s with sched := ts } := by rw [State.popTurn, hs]; rfl
    rw [step_eq, step_eq, hport, htail]
    rfl

theorem step_press {s : State} {ts : List Turn} (hframes : framesAdmitted s.mem)
    (hs : s.sched = .press :: ts ∨ s.sched = .bankPort (portWord true (s.bank + 1#2)) :: ts) :
    Machine.step s = takeTurn .press { s with sched := ts } := by
  rcases hs with hs | hs
  · exact step_cons hframes hs
  · exact (step_cons hframes hs).trans (takeTurn_bankPort_press { s with sched := ts })

/-- Settles O37: COOP_SCHED and PH decide whether the bank writer may step, and its one move is PRESS. -/
theorem bankWriterMovesWhereTheScheduleAdmitsIt : Obligations.BankWriterMovesWhereTheScheduleAdmitsIt := by
  refine fun s ts hframes => ⟨fun hs hmay => ?_, fun hs hcoop hph => ?_⟩
  · have hen : bankWriterEnabled { s with sched := ts } :=
      fun hc => hmay.resolve_left (by rw [show s.cfg.coopSched = true from hc]; decide)
    rw [step_press hframes hs, press_of_enabled hen]
    rfl
  · have hen : ¬ bankWriterEnabled { s with sched := ts } := fun h => hph (h hcoop)
    rcases hs with hs | ⟨d, hs⟩
    · rw [step_cons hframes hs, press_of_not_enabled hen]
    · rw [step_cons hframes hs, bankPort_of_not_enabled hen]

/-- Settles O14: FHOLD stops the sequencer, and the bank writer's moves leave everything but BANK and the record. -/
theorem fholdHasNoStep : Obligations.FholdHasNoStep := by
  refine ⟨rfl, exec_fhold, fun s => sequencerTurn_fhold, fun s hph hcoop => ?_, fun s hph hcoop => ?_,
    fun x s t hph hreset h => ?_⟩
  · have hen : bankWriterEnabled s := fun hc => absurd hc (by rw [hcoop]; decide)
    exact ⟨press_of_enabled hen, (takeTurn_bankPort_press s).trans (press_of_enabled hen)⟩
  · have hen : ¬ bankWriterEnabled s := fun h => absurd (hph.symm.trans (h hcoop)) (by decide)
    exact ⟨press_of_not_enabled hen, bankPort_of_not_enabled hen⟩
  · have hseq : x ≠ .sequencer := by
      rintro rfl
      exact ne_fhold_of_sequencerTurn h hph
    obtain ⟨hfb, hpos, -, -, -, hfault, hcode, hout⟩ := bank_turn_keep h hseq hreset
    simp only [State.position, Prod.mk.injEq] at hpos
    obtain ⟨hph', hrow, hcol⟩ := hpos
    exact ⟨hph'.trans hph, hout, hrow, hcol, hfb, hfault, hcode⟩

/-! ### The sequencer does not wait -/

/-- Outside BSAMPLE an operation of the sequencer neither reads BANK nor writes it. -/
theorem exec_with_bank {i : Instr} {s t : State} (v : Bank) (hsample : i ≠ .bsample) (hbwr : ∀ d, i ≠ .bwr d)
    (h : exec i s = .next t) : exec i { s with bank := v } = .next { t with bank := v } := by
  cases i with
  | bsample => exact absurd rfl hsample
  | bwr d => exact absurd rfl (hbwr d)
  | fhold => nomatch h
  | data =>
    rcases Option.eq_none_or_eq_some s.fb with hfb | ⟨b, hfb⟩
    · rw [exec_data_unwritten hfb] at h; injection h with h; subst h
      exact exec_data_unwritten (s := { s with bank := v }) hfb
    · obtain ⟨hmem, -⟩ := exec_keeps h
      exact (dataReadsOnlyTheSampledFrame s b s.mem v hfb rfl t h).trans (by rw [hmem])
  | clkh | clkl | blank | latl | lwait | lath | addr | unblank => injection h with h; subst h; rfl

theorem decodePhase_ne_bwr {c : PhaseCode} {i : Instr} (h : decodePhase c = .ok i) (d : Bank) : i ≠ .bwr d := by
  rintro rfl
  nomatch encode_of_decodePhase h

theorem decodePhase_bsample {c : PhaseCode} (h : decodePhase c = .ok .bsample) : c = Ph.bsample :=
  (EncWord.ph4.inj (encode_of_decodePhase h)).symm

theorem sequencerTurn_with_bank {s t : State} (v : Bank) (hph : s.ph ≠ Ph.bsample) (h : sequencerTurn s = .next t) :
    sequencerTurn { s with bank := v } = .next { t with bank := v } := by
  cases hd : decodePhase s.ph with
  | ok i =>
    rw [sequencerTurn_of_decode (s := { s with bank := v }) hd]
    refine exec_with_bank v ?_ (decodePhase_ne_bwr hd) ((sequencerTurn_of_decode hd).symm.trans h)
    rintro rfl
    exact hph (decodePhase_bsample hd)
  | error e =>
    rw [sequencerTurn_reserved hd] at h; injection h with h; subst h
    exact sequencerTurn_reserved (s := { s with bank := v }) hd

/-- Settles O41: BSAMPLE completes with any BANK, and outside it the step is the same step. -/
theorem sequencerNeverWaitsOnTheBankWriter : Obligations.SequencerNeverWaitsOnTheBankWriter := by
  refine fun s v => ⟨fun t h => ?_, fun hph t => sequencerTurn_with_bank v hph⟩
  by_cases hph : s.ph = Ph.bsample
  · rw [sequencerTurn_bsample hph, exec_bsample] at h; injection h with h; subst h
    exact ⟨_, (sequencerTurn_bsample (s := { s with bank := v }) hph).trans (exec_bsample _), rfl, rfl⟩
  · exact ⟨_, sequencerTurn_with_bank v hph h, rfl, rfl⟩

/-- Without a fault the invariant excludes FHOLD, the one phase with no step. -/
theorem inv_ne_fhold {s : State} (hinv : Inv s) (hgood : s.good) : s.ph ≠ Ph.fhold := by
  intro hph
  rw [State.good, hinv.faultIffHold.2 hph] at hgood
  nomatch hgood

theorem exists_sequencerTurn {s : State} (h : s.ph ≠ Ph.fhold) : ∃ t, sequencerTurn s = .next t := by
  obtain ⟨t, ht, -⟩ := exists_seqStep h
  exact ⟨t, ht⟩

/-- Settles O49: neither a bank write nor a reset takes the block to FHOLD. -/
theorem sequencerIsAlwaysEnabled : Obligations.SequencerIsAlwaysEnabled := by
  intro s hinv hgood
  have hph := inv_ne_fhold hinv hgood
  refine ⟨exists_sequencerTurn hph, fun x t hx h => exists_sequencerTurn ?_⟩
  by_cases hreset : x = .reset
  · subst hreset
    injection h with h; subst h
    rw [assertReset_ph]; decide
  · obtain ⟨-, hpos, -⟩ := bank_turn_keep h hx hreset
    rwa [show t.ph = s.ph from congrArg Prod.fst hpos]

/-! ### The word a step runs -/

theorem step_sequencer {s : State} {i : Instr} (hframes : framesAdmitted s.mem) (hseq : s.nextTurn = .sequencer)
    (h : decode (.ph4 s.ph) = .ok i) : Machine.step s = exec i { s with sched := s.sched.tail } := by
  rw [step_eq, if_pos hframes, hseq]
  exact sequencerTurn_of_decode h

theorem step_bankPort {s : State} {w : PortWord} {i : Instr} (hframes : framesAdmitted s.mem)
    (hport : s.nextTurn = .bankPort w) (hen : bankWriterEnabled s) (hk : keepsContract w s)
    (h : decode (.bport3 w) = .ok i) : Machine.step s = exec i { s with sched := s.sched.tail } := by
  obtain ⟨hwe, rfl⟩ := (decodePort_ok_iff w i).1 h
  rw [step_eq, if_pos hframes, hport, exec_bwr, show portWd w = s.bank + 1#2 from hk]
  show bankPortTurn w s.popTurn = _
  rw [bankPortTurn_eq, if_pos hwe, if_pos (show bankWriterEnabled s.popTurn from hen),
    if_pos (show keepsContract w s.popTurn from hk)]
  rfl

/-- A table word that decodes is a word of its format, in the low bits of its byte. -/
theorem decodeTableWord_some {nbits w : Nat} {i : Instr} (h : decodeTableWord nbits w = some i) :
    ∃ e : EncWord, e.format = tableFormat nbits ∧ e.bits = w ∧ decode e = .ok i := by
  unfold decodeTableWord at h
  split_ifs at h with hw
  split at h
  · next hb =>
    injection h with h; subst h
    obtain ⟨e, hformat, hbits, hdecode⟩ := word_of_decodeByte hb
    exact ⟨e, hformat, hbits.trans (Nat.mod_eq_of_lt hw), hdecode⟩
  · nomatch h

/-- The placed word is the next step's (log entry 15): a PH code in PH, a port word where its contract holds. -/
theorem step_withFetchWord {s : State} {nbits : Nat} {e : EncWord} {i : Instr} (hframes : framesAdmitted s.mem)
    (hformat : e.format = tableFormat nbits) (h : decode e = .ok i) :
    Machine.step (s.withFetchWord nbits e.bits) = exec i { s.withFetchWord nbits e.bits with sched := s.sched } := by
  unfold State.withFetchWord placeWord
  rw [← hformat]
  cases e with
  | ph4 c =>
    have hc : BitVec.ofNat 4 c.toNat = c := by rw [BitVec.ofNat_toNat, BitVec.setWidth_eq]
    exact step_sequencer hframes rfl (by rw [← h]; exact congrArg (fun c => decode (.ph4 c)) hc)
  | bport3 w =>
    have hw : BitVec.ofNat 3 w.toNat = w := by rw [BitVec.ofNat_toNat, BitVec.setWidth_eq]
    have hwe := ((decodePort_ok_iff w i).1 h).1
    simp only [EncWord.format, EncWord.bits, hw, hwe, if_true]
    exact step_bankPort hframes rfl (fun hc => if_pos hc) (BitVec.sub_add_cancel _ _).symm h

/-- Settles O44: the sequencer's step, the bank writer's, and the placed word through the word its byte holds. -/
theorem stepRunsTheDecodedOperation : Obligations.StepRunsTheDecodedOperation := by
  refine ⟨fun s i => step_sequencer, fun s w i => step_bankPort, fun s hframes hpress hen => ?_,
    fun s nbits w i hframes h => ?_⟩
  · rw [step_eq, if_pos hframes, hpress]
    exact press_of_enabled (s := s.popTurn) hen
  · obtain ⟨e, hformat, rfl, hdecode⟩ := decodeTableWord_some h
    exact ⟨_, rfl, step_withFetchWord hframes hformat hdecode⟩

end Sys2Proof.Proofs


/-! The Frame Store (10_state.md R43, 70_reset_and_hazards.md R262): a byte placed at build time is read back, and the
canonical form makes equal contents equal data. -/

namespace Sys2Proof.Proofs

open Sys2Proof.Machine Sys2Proof.Laws

/-! ### The Frames of a store -/

theorem bank_cases : ∀ b : Bank, b = 0#2 ∨ b = 1#2 ∨ b = 2#2 ∨ b = 3#2 := by decide

theorem frame_wf {m : Memory} (h : m.wf = true) (b : Bank) : (m.frame b).wf = true := by
  simp only [Memory.wf, Bool.and_eq_true] at h
  obtain ⟨⟨⟨h0, h1⟩, h2⟩, h3⟩ := h
  obtain rfl | rfl | rfl | rfl := bank_cases b
  · exact h0
  · exact h1
  · exact h2
  · exact h3

theorem memory_ext {m m' : Memory} (h : ∀ b, m.frame b = m'.frame b) : m = m' := by
  obtain ⟨f0, f1, f2, f3⟩ := m
  obtain ⟨g0, g1, g2, g3⟩ := m'
  exact Memory.mk.injEq .. ▸ ⟨h 0#2, h 1#2, h 2#2, h 3#2⟩

/-- Placing a byte in a bank's Frame changes that Frame alone. -/
theorem frame_put (m : Memory) (b b' : Bank) (a : Nat) (v : Byte) :
    (m.put b a v).frame b' = if b' = b then (m.frame b).put a v else m.frame b' := by
  obtain rfl | rfl | rfl | rfl := bank_cases b <;> obtain rfl | rfl | rfl | rfl := bank_cases b' <;> rfl

theorem len_put (f : Frame) (a : Nat) (v : Byte) : (f.put a v).len = f.len := by
  unfold Frame.put
  split_ifs <;> rfl

theorem byte_put {f : Frame} (hf : f.wf = true) {a : Nat} (ha : a < f.len) (v : Byte) (a' : Nat) :
    (f.put a v).byte a' = if a' = a then v else f.byte a' := by
  rw [Frame.put, if_pos ha]
  exact cellsRead_put a v a' hf

/-- Settles O31: the read of the placed Frame, and the other Frames untouched. -/
theorem placedByteIsReadBack : Obligations.PlacedByteIsReadBack := by
  intro m b b' a a' v hm ha
  have hread := byte_put (frame_wf hm b) ha v
  unfold readPort
  simp only [frame_put]
  refine ⟨by rw [if_pos trivial, hread, if_pos rfl], fun hne => ?_, ?_⟩
  · by_cases hb : b' = b
    · subst hb
      rw [if_pos rfl, hread, if_neg (hne.resolve_left (fun h => h rfl))]
    · rw [if_neg hb]
  · by_cases hb : b' = b
    · rw [if_pos hb, len_put, hb]
    · rw [if_neg hb]

/-! ### The canonical form -/

theorem cellsRead_of_ge {lo len a : Nat} (h : len ≤ a) : ∀ {cs : List Host.Cell}, cellsWf lo len cs = true →
    cellsRead cs a = unlistedByte
  | [], _ => rfl
  | (k, v) :: rest, hw => by
    simp only [cellsWf, Bool.and_eq_true, decide_eq_true_eq] at hw
    obtain ⟨⟨⟨-, hk⟩, -⟩, hrest⟩ := hw
    rw [cellsRead, if_neg (by omega)]
    exact cellsRead_of_ge h hrest

/-- The first cell of a canonical list is the first address that reads as no unlisted one does, so two canonical lists
with equal reads have the same first cell. -/
theorem cells_ext {len : Nat} : ∀ {cs cs' : List Host.Cell} {lo lo' : Nat}, cellsWf lo len cs = true →
    cellsWf lo' len cs' = true → (∀ a, cellsRead cs a = cellsRead cs' a) → cs = cs'
  | [], [], _, _, _, _, _ => rfl
  | [], (k, v) :: rest, _, _, _, hw, h => by
    simp only [cellsWf, Bool.and_eq_true, decide_eq_true_eq] at hw
    obtain ⟨⟨-, hv⟩, -⟩ := hw
    exact absurd (h k).symm (by simpa [cellsRead] using hv)
  | (k, v) :: rest, [], _, _, hw, _, h => by
    simp only [cellsWf, Bool.and_eq_true, decide_eq_true_eq] at hw
    obtain ⟨⟨-, hv⟩, -⟩ := hw
    exact absurd (h k) (by simpa [cellsRead] using hv)
  | (k, v) :: rest, (k', v') :: rest', _, _, hw, hw', h => by
    simp only [cellsWf, Bool.and_eq_true, decide_eq_true_eq] at hw hw'
    obtain ⟨⟨-, hv⟩, hrest⟩ := hw
    obtain ⟨⟨-, hv'⟩, hrest'⟩ := hw'
    have hlow : ∀ x, x ≤ k → cellsRead rest x = unlistedByte := fun x hx => cellsRead_of_lt (Nat.lt_succ_of_le hx) hrest
    have hlow' : ∀ x, x ≤ k' → cellsRead rest' x = unlistedByte :=
      fun x hx => cellsRead_of_lt (Nat.lt_succ_of_le hx) hrest'
    have hk := h k
    have hk' := h k'
    simp only [cellsRead, if_true] at hk hk'
    obtain rfl : k = k' := by
      rcases Nat.lt_trichotomy k k' with hlt | heq | hgt
      · rw [if_neg (by omega), hlow' k (by omega)] at hk
        exact absurd hk hv
      · exact heq
      · rw [if_neg (by omega), hlow k' (by omega)] at hk'
        exact absurd hk'.symm hv'
    rw [if_pos rfl] at hk
    have htail : ∀ a, cellsRead rest a = cellsRead rest' a := by
      intro a
      by_cases ha : a ≤ k
      · rw [hlow a ha, hlow' a ha]
      · simpa only [cellsRead, if_neg (show ¬ k = a by omega)] using h a
    rw [hk, cells_ext hrest hrest' htail]

/-- Two canonical Frames of one length with the same bytes below it are equal. -/
theorem frame_ext {f g : Frame} (hf : f.wf = true) (hg : g.wf = true) (hlen : f.len = g.len)
    (h : ∀ a, a < f.len → f.byte a = g.byte a) : f = g := by
  obtain ⟨len, cells⟩ := f
  obtain ⟨len', cells'⟩ := g
  obtain rfl : len = len' := hlen
  refine congrArg (Frame.mk len) (cells_ext hf hg fun a => ?_)
  by_cases ha : a < len
  · exact h a ha
  · have hge : len ≤ a := Nat.le_of_not_lt ha
    exact (cellsRead_of_ge hge hf).trans (cellsRead_of_ge hge hg).symm

/-- Settles O32: Frame by Frame. -/
theorem canonicalStoresWithEqualBytesAreEqual : Obligations.CanonicalStoresWithEqualBytesAreEqual :=
  fun _ _ hm hm' hlen hread =>
    memory_ext fun b => frame_ext (frame_wf hm b) (frame_wf hm' b) (hlen b) (hread b)

end Sys2Proof.Proofs


/-! Runs of the machine: what every step keeps holds along a run, and what every step can do again carries a run to its
end, by the number of steps or along the schedule. -/

namespace Sys2Proof.Proofs

open Sys2Proof.Machine Sys2Proof.Laws

/-! ### Runs of a number of steps -/

theorem run_add {m : Nat} : ∀ {s t : State} (n : Nat), Host.Core.run Sys2Proof.core m s = .next t →
    Host.Core.run Sys2Proof.core (m + n) s = Host.Core.run Sys2Proof.core n t := by
  induction m with
  | zero =>
    intro s t n h
    obtain rfl : s = t := Host.Outcome.next.inj h
    rw [Nat.zero_add]
  | succ m ih =>
    intro s t n h
    obtain ⟨u, hstep, hrun⟩ := run_succ_inv h
    rw [Nat.succ_add]
    exact (run_succ_next hstep).trans (ih n hrun)

theorem run_one {s t : State} (h : Machine.step s = .next t) : Host.Core.run Sys2Proof.core 1 s = .next t :=
  run_succ_next h

/-- A property of the step number and the state that every step before the last keeps holds at the end of a run. -/
theorem run_keeps {P : Nat → State → Prop} {n : Nat}
    (hstep : ∀ k s t, k < n → P k s → Machine.step s = .next t → P (k + 1) t) :
    ∀ {j k : Nat} {s u : State}, k + j ≤ n → P k s → Host.Core.run Sys2Proof.core j s = .next u → P (k + j) u := by
  intro j
  induction j with
  | zero =>
    intro k s u _ hs h
    obtain rfl : s = u := Host.Outcome.next.inj h
    exact hs
  | succ j ih =>
    intro k s u hle hs h
    obtain ⟨t, ht, hrun⟩ := run_succ_inv h
    rw [Nat.add_succ, ← Nat.succ_add]
    exact ih (by omega) (hstep k s t (by omega) hs ht) hrun

/-- A property of the step number and the state that always has a step to the next number carries a run on. -/
theorem run_progress {P : Nat → State → Prop} {n : Nat}
    (hstep : ∀ k s, k < n → P k s → ∃ t, Machine.step s = .next t ∧ P (k + 1) t) :
    ∀ {j k : Nat} {s : State}, k + j ≤ n → P k s → ∃ t, Host.Core.run Sys2Proof.core j s = .next t ∧ P (k + j) t := by
  intro j
  induction j with
  | zero => exact fun {k s} _ hs => ⟨s, rfl, hs⟩
  | succ j ih =>
    intro k s hle hs
    obtain ⟨t, ht, hnext⟩ := hstep k s (by omega) hs
    obtain ⟨u, hu, hlast⟩ := ih (k := k + 1) (by omega) hnext
    exact ⟨u, (run_succ_next ht).trans hu, by rwa [Nat.add_succ, ← Nat.succ_add]⟩

/-! ### Runs along the schedule -/

theorem seqStep_sched {s t : State} (h : SeqStep s t) : t.sched = s.sched := by cases h <;> rfl

/-- A step takes one move off the schedule. -/
theorem step_sched {s t : State} (h : Machine.step s = .next t) : t.sched = s.sched.tail := by
  rcases step_cases h with ⟨-, hstep⟩ | ⟨-, rfl⟩ | ⟨-, rfl | rfl⟩
  · exact seqStep_sched hstep
  · rfl
  · rfl
  · rfl

theorem takeTurn_of_step {s t : State} {x : Turn} {ts : List Turn} (hs : s.sched = x :: ts)
    (h : Machine.step s = .next t) : takeTurn x { s with sched := ts } = .next t :=
  (step_cons (step_next h).1 hs).symm.trans h

theorem run_schedule_keeps {P : State → Prop}
    (hstep : ∀ s t x ts, s.sched = x :: ts → P s → Machine.step s = .next t → P t) {s u : State} (hs : P s)
    (h : Host.Core.run Sys2Proof.core s.sched.length s = .next u) : P u ∧ u.sched = [] := by
  have key := run_keeps (P := fun k t => P t ∧ k + t.sched.length = s.sched.length) (n := s.sched.length)
    (fun k t u hk ⟨ht, hlen⟩ hu => by
      cases hx : t.sched with
      | nil => simp [hx] at hlen; omega
      | cons x ts =>
        rw [hx, List.length_cons] at hlen
        rw [step_sched hu, hx, List.tail_cons]
        exact ⟨hstep t u x ts hx ht hu, by omega⟩)
    (k := 0) (by omega) ⟨hs, by omega⟩ h
  exact ⟨key.1, List.eq_nil_of_length_eq_zero (by omega)⟩

theorem run_schedule_progress {P : State → Prop}
    (hstep : ∀ s x ts, s.sched = x :: ts → P s → ∃ t, Machine.step s = .next t ∧ P t) {s : State} (hs : P s) :
    ∃ t, Host.Core.run Sys2Proof.core s.sched.length s = .next t ∧ P t ∧ t.sched = [] := by
  obtain ⟨t, ht, key⟩ := run_progress (P := fun k t => P t ∧ k + t.sched.length = s.sched.length) (n := s.sched.length)
    (fun k t hk ⟨ht, hlen⟩ => by
      cases hx : t.sched with
      | nil => simp [hx] at hlen; omega
      | cons x ts =>
        rw [hx, List.length_cons] at hlen
        obtain ⟨u, hu, hPu⟩ := hstep t x ts hx ht
        refine ⟨u, hu, hPu, ?_⟩
        rw [step_sched hu, hx, List.tail_cons]
        omega)
    (j := s.sched.length) (k := 0) (by omega) ⟨hs, by omega⟩
  exact ⟨t, ht, key.1, List.eq_nil_of_length_eq_zero (by omega)⟩

/-! ### The presses of a run -/

theorem press_next {s t : State} (h : takeTurn .press s = .next t) : t = Machine.bankWrite (s.bank + 1#2) s :=
  Host.Outcome.next.inj (h.symm.trans (press_of_enabled (admittedTurn_of_next h)))

/-- A schedule of sequencer moves and presses that takes BANK to `n` modulo 4. -/
structure PressesTo (n : Nat) (s : State) : Prop where
  moves : ∀ x ∈ s.sched, x = .sequencer ∨ x = .press
  bank  : (s.bank.toNat + s.sched.count .press) % 4 = n % 4

theorem pressesTo_step {n : Nat} {s t : State} {x : Turn} {ts : List Turn} (hs : s.sched = x :: ts)
    (h : PressesTo n s) (hstep : Machine.step s = .next t) : PressesTo n t := by
  obtain ⟨hmoves, hbank⟩ := h
  have hturn := takeTurn_of_step hs hstep
  have hts : t.sched = ts := by rw [step_sched hstep, hs, List.tail_cons]
  rw [hs] at hmoves hbank
  obtain ⟨hx, hrest⟩ := List.forall_mem_cons.1 hmoves
  refine ⟨hts ▸ hrest, ?_⟩
  rw [hts]
  rcases hx with rfl | rfl
  · rw [seqStep_bank (seqStep_of_next hturn)]
    simpa using hbank
  · rw [press_next hturn, bankWrite_bank, bank_succ_toNat]
    rw [List.count_cons_self] at hbank
    show ((s.bank.toNat + 1) % 4 + _) % 4 = _
    omega

/-- Settles O43: BANK and the presses to come are constant together, modulo 4. -/
theorem bankCountsPressesModuloFour : Obligations.BankCountsPressesModuloFour := by
  intro s t hmoves h
  obtain ⟨⟨-, hbank⟩, hsched⟩ := run_schedule_keeps (P := PressesTo (s.bank.toNat + s.sched.count .press))
    (fun _ _ _ _ hs hP => pressesTo_step hs hP) ⟨hmoves, rfl⟩ h
  have hlt : t.bank.toNat < 4 := t.bank.isLt
  rw [hsched, List.count_nil] at hbank
  omega

end Sys2Proof.Proofs


/-! The scan along the step numbering (42_row_scan.md R174, R177, R179, 70_reset_and_hazards.md R261): in a configuration
with TBO in its bound each move of the sequencer takes the block from one step number to the next without a fault, and
the phase of a step number says which lines and registers the step can write. -/

namespace Sys2Proof.Proofs

open Sys2Proof.Machine Sys2Proof.Laws

/-! ### The phase of a step number -/

theorem positionAt_phase_cases (k : Nat) : k % 3169 = 0 ∧ (positionAt k).1 = Ph.bsample ∨
    k % 3169 ≠ 0 ∧ (inShift (positionAt k).1 ∨ inRowEnd (positionAt k).1) := by
  rcases stepNumber_cases k with ⟨f, rfl⟩ | ⟨f, r, c, e, hr, hc, he, rfl⟩ | ⟨f, r, e, hr, he, rfl⟩
  · exact .inl ⟨by omega, by rw [positionAt_frame]⟩
  · have hmod : (3169 * f + 1 + 198 * r + 3 * c + e) % 3169 = 1 + 198 * r + 3 * c + e := by omega
    refine .inr ⟨by omega, .inl ?_⟩
    rw [positionAt_column hr hc he]
    show inShift (BitVec.ofNat 4 (1 + e))
    clear hmod
    interval_cases e <;> decide
  · have hmod : (3169 * f + 1 + 198 * r + 192 + e) % 3169 = 1 + 198 * r + 192 + e := by omega
    refine .inr ⟨by omega, .inr ?_⟩
    rw [positionAt_rowEnd hr he]
    show inRowEnd (BitVec.ofNat 4 (4 + e))
    clear hmod
    interval_cases e <;> decide

theorem positionAt_phase_legal (k : Nat) : (positionAt k).1 ≠ Ph.fhold ∧
    decodePhase (positionAt k).1 ≠ .error (.reservedPhase (positionAt k).1) := by
  have hlegal : ∀ c : PhaseCode, c = Ph.bsample ∨ inShift c ∨ inRowEnd c →
      c ≠ Ph.fhold ∧ decodePhase c ≠ .error (.reservedPhase c) := by decide
  exact hlegal _ ((positionAt_phase_cases k).imp And.right And.right)

theorem positionAt_ne_bsample {k : Nat} (h : k % 3169 ≠ 0) : (positionAt k).1 ≠ Ph.bsample := by
  have hne : ∀ c : PhaseCode, inShift c ∨ inRowEnd c → c ≠ Ph.bsample := by decide
  rcases positionAt_phase_cases k with ⟨h0, -⟩ | ⟨-, hphase⟩
  · exact absurd h0 h
  · exact hne _ hphase

theorem ph_of_position {s : State} {k : Nat} (h : s.position = positionAt k) : s.ph = (positionAt k).1 :=
  congrArg Prod.fst h

/-! ### Scanning -/

/-- The block is at step number `k` of the scan, in a configuration that may run without a fault. -/
structure Scanning (k : Nat) (s : State) : Prop where
  ready     : readyToRun s
  good      : s.good
  position  : s.position = positionAt k
  fbWritten : s.ph ≠ Ph.bsample → s.fb ≠ none

/-- A step of the sequencer with FB written, PH in the scan and TBO in its bound enters no fault. -/
theorem seqStep_no_fault {s t : State} (h : SeqStep s t) (hbound : tboFitsAll s) (hfb : s.ph ≠ Ph.bsample → s.fb ≠ none)
    (hres : decodePhase s.ph ≠ .error (.reservedPhase s.ph)) :
    t.ph ≠ Ph.fhold ∧ t.fault = s.fault ∧ t.fb ≠ none := by
  cases h with
  | dataUnwritten hph hnone => exact absurd hnone (hfb (by simp [hph]))
  | dataOob hph b pl made hsome hmade hnot => exact absurd (admit_of_bound (hbound b) pl s.row s.col) hnot
  | reserved hph => exact absurd hph hres
  | bsample => simp
  | clkl hph => by_cases hc : s.col = 63#6 <;> simpa [hc] using hfb (by simp [hph])
  | unblank hph => by_cases hr : s.row = 15#4 <;> simpa [hr] using hfb (by simp [hph])
  | dataPair hph | clkh hph | blank hph | latl hph | lwait hph | lath hph | addr hph =>
    exact ⟨by simp, rfl, hfb (by simp [hph])⟩

/-- The sequencer's move goes to the next step number. -/
theorem scanning_sequencer {k : Nat} {s : State} (hs : Scanning k s) :
    ∃ t, sequencerTurn s = .next t ∧ SeqStep s t ∧ Scanning (k + 1) t := by
  obtain ⟨⟨hframes, hbound⟩, hgood, hpos, hfb⟩ := hs
  obtain ⟨hhold, hres⟩ := positionAt_phase_legal k
  rw [← ph_of_position hpos] at hhold hres
  obtain ⟨t, ht, hstep⟩ := exists_seqStep hhold
  obtain ⟨hph, hfault, hfb'⟩ := seqStep_no_fault hstep hbound hfb hres
  obtain ⟨hmem, hcfg⟩ := seqStep_mem_cfg hstep
  refine ⟨t, ht, hstep, ⟨?_, hfault.trans hgood, position_step hpos ht hph, fun _ => hfb'⟩⟩
  rw [readyToRun, tboFitsAll, hmem, hcfg]
  exact ⟨hframes, hbound⟩

/-- A bank write, and the schedule, are nothing to the scan. -/
theorem scanning_congr {k : Nat} {s t : State} (hs : Scanning k s)
    (h : { s with bank := t.bank, hist := t.hist, sched := t.sched } = t) : Scanning k t := by
  rw [← h]
  exact { hs with }

theorem scanning_step_sequencer {k : Nat} {s : State} (hs : Scanning k s) (hsched : s.sched = []) :
    ∃ t, Machine.step s = .next t ∧ SeqStep s t ∧ Scanning (k + 1) t ∧ t.sched = [] := by
  obtain ⟨t, ht, hstep, hnext⟩ := scanning_sequencer hs
  exact ⟨t, (step_empty hs.ready.1 hsched).trans ht, hstep, hnext, (seqStep_sched hstep).trans hsched⟩

/-! ### Admitted schedules -/

theorem enabled_of_mayWriteBefore {k : Nat} {s : State} (hpos : s.position = positionAt k)
    (h : mayWriteBefore s.cfg.coopSched k = true) : bankWriterEnabled s := by
  intro hcoop
  rw [ph_of_position hpos]
  simpa [mayWriteBefore, hcoop] using h

/-- The block is in the scan, its schedule is admitted from here, and it ends at step number `n`. -/
structure AdmittedTo (n k : Nat) (s : State) : Prop where
  scanning : Scanning k s
  admitted : admittedFrom s.cfg.coopSched k s.bank s.sched = true
  count    : k + s.sched.count .sequencer = n

/-- A PRESS where the schedule admits it leaves the step number. -/
theorem admittedTo_press {n k : Nat} {s : State} {ts : List Turn} (hs : Scanning k s) (hts : s.sched = ts)
    (hmay : mayWriteBefore s.cfg.coopSched k = true)
    (hrest : admittedFrom s.cfg.coopSched k (s.bank + 1#2) ts = true) (hcount : k + ts.count .sequencer = n) :
    ∃ t, takeTurn .press s = .next t ∧ AdmittedTo n k t := by
  subst hts
  exact ⟨_, press_of_enabled (enabled_of_mayWriteBefore hs.position hmay), scanning_congr hs rfl, hrest, hcount⟩

theorem admittedTo_step {n k : Nat} {s : State} {x : Turn} {ts : List Turn} (hx : s.sched = x :: ts)
    (h : AdmittedTo n k s) : ∃ t, Machine.step s = .next t ∧ ∃ k', AdmittedTo n k' t := by
  obtain ⟨hscan, hadmitted, hcount⟩ := h
  have hpop : Scanning k { s with sched := ts } := scanning_congr hscan rfl
  rw [step_cons hscan.ready.1 hx]
  rw [hx] at hadmitted hcount
  cases x with
  | sequencer =>
    obtain ⟨t, ht, hstep, hnext⟩ := scanning_sequencer hpop
    refine ⟨t, ht, k + 1, hnext, ?_, ?_⟩
    · rw [(seqStep_mem_cfg hstep).2, seqStep_bank hstep, seqStep_sched hstep]
      exact hadmitted
    · rw [seqStep_sched hstep]
      rw [List.count_cons_self] at hcount
      show k + 1 + ts.count .sequencer = n
      omega
  | press =>
    simp only [admittedFrom, Bool.and_eq_true] at hadmitted
    obtain ⟨hmay, hrest⟩ := hadmitted
    obtain ⟨t, ht, hnext⟩ := admittedTo_press hpop rfl hmay hrest (by simpa using hcount)
    exact ⟨t, ht, k, hnext⟩
  | bankPort w =>
    rw [admittedFrom] at hadmitted
    by_cases hwe : portWe w = true
    · rw [if_pos hwe] at hadmitted
      simp only [Bool.and_eq_true, decide_eq_true_eq] at hadmitted
      obtain ⟨⟨hmay, hwd⟩, hrest⟩ := hadmitted
      obtain rfl : portWord true (s.bank + 1#2) = w := by rw [← hwd, portWord_portWd hwe]
      obtain ⟨t, ht, hnext⟩ := admittedTo_press hpop rfl hmay hrest (by simpa using hcount)
      exact ⟨t, ht, k, hnext⟩
    · rw [if_neg hwe] at hadmitted
      have hnothing : takeTurn (.bankPort w) { s with sched := ts } = .next { s with sched := ts } := by
        show bankPortTurn w _ = _
        rw [bankPortTurn_eq, if_neg hwe]
      exact ⟨_, hnothing, k, hpop, hadmitted, by simpa using hcount⟩
  | reset => nomatch hadmitted

/-- Settles O18: along the schedule the step number and the sequencer moves to come have a constant sum. -/
theorem scanPositionCountsSequencerMoves : Obligations.ScanPositionCountsSequencerMoves := by
  intro s hready hgood hpos hadmitted
  have hstart : Scanning 0 s := ⟨hready, hgood, hpos, fun hph => absurd (congrArg Prod.fst hpos) hph⟩
  obtain ⟨n, hn⟩ : ∃ n, s.sched.count .sequencer = n := ⟨_, rfl⟩
  obtain ⟨t, ht, ⟨k, hscan, -, hcount⟩, hsched⟩ := run_schedule_progress (P := fun s' => ∃ k, AdmittedTo n k s')
    (fun s' x ts hx ⟨k, hk⟩ => admittedTo_step hx hk) ⟨0, hstart, hadmitted, by rw [hn, Nat.zero_add]⟩
  rw [hsched, List.count_nil] at hcount
  obtain rfl : k = n := hcount
  exact ⟨t, ht, hn ▸ hscan.position, hscan.good, hsched⟩

end Sys2Proof.Proofs


/-! The frame as the scan runs through it: the bank it samples once (42_row_scan.md R177), the lines before their first
writes (70_reset_and_hazards.md R261), the row end (R176), row 15 shown while row 0 is shifted (R178), and the operations
of a frame in the order of the step numbers (R174, 30_encoding.md R113). -/

namespace Sys2Proof.Proofs

open Sys2Proof.Machine Sys2Proof.Laws

/-! ### The sampled bank -/

theorem seqStep_fb {s t : State} (h : SeqStep s t) (hph : s.ph ≠ Ph.bsample) : t.fb = s.fb := by
  cases h with
  | bsample hb => exact absurd hb hph
  | dataUnwritten | dataPair | dataOob | clkh | clkl | blank | latl | lwait | lath | addr | unblank | reserved => rfl

/-- FB is written by BSAMPLE and cleared by a reset, and by no other step. -/
theorem step_fb {s t : State} (h : Machine.step s = .next t) (hreset : s.nextTurn ≠ .reset)
    (hph : s.nextTurn = .sequencer → s.ph ≠ Ph.bsample) : t.fb = s.fb := by
  rcases step_cases h with ⟨hseq, hstep⟩ | ⟨hr, -⟩ | ⟨-, rfl | rfl⟩
  · exact (seqStep_fb hstep (hph hseq)).trans (popTurn_fb s)
  · exact absurd hr hreset
  · rfl
  · rfl

/-- FB holds the sample `b` to the end of the frame: the step number is past BSAMPLE, and the moves to come do not take
it to the next one; or the sequencer has stopped in a fault. -/
structure SampleHeld (b : Bank) (s : State) : Prop where
  fb       : s.fb = some b
  noReset  : noReset s.sched
  position : s.ph = Ph.fhold ∨
    ∃ k, 1 ≤ k ∧ k + s.sched.count .sequencer ≤ 3169 ∧ s.position = positionAt k

theorem sampleHeld_step {b : Bank} {s t : State} {x : Turn} {ts : List Turn} (hx : s.sched = x :: ts)
    (h : SampleHeld b s) (hstep : Machine.step s = .next t) : SampleHeld b t := by
  obtain ⟨hfb, hno, hpos⟩ := h
  have hturn := takeTurn_of_step hx hstep
  have hts : t.sched = ts := by rw [step_sched hstep, hx, List.tail_cons]
  rw [hx] at hno hpos
  have hreset : x ≠ .reset := fun he => hno (he ▸ List.mem_cons_self)
  have hno' : noReset t.sched := hts ▸ fun hm => hno (List.mem_cons_of_mem _ hm)
  by_cases hseq : x = .sequencer
  · subst hseq
    have hseqStep := seqStep_of_next hturn
    obtain ⟨k, hlow, hhigh, hk⟩ := hpos.resolve_left (ne_fhold_of_sequencerTurn (s := { s with sched := ts }) hturn)
    rw [List.count_cons_self] at hhigh
    have hph : s.ph ≠ Ph.bsample := ph_of_position hk ▸ positionAt_ne_bsample (by omega)
    refine ⟨(seqStep_fb hseqStep hph).trans hfb, hno', ?_⟩
    by_cases hhold : t.ph = Ph.fhold
    · exact .inl hhold
    · exact .inr ⟨k + 1, by omega, by rw [hts]; omega, position_step (s := { s with sched := ts }) hk hturn hhold⟩
  · obtain ⟨hfb', hposition, -⟩ := bank_turn_keep hturn hseq hreset
    have hph : t.ph = s.ph := congrArg Prod.fst hposition
    refine ⟨hfb'.trans hfb, hno', hpos.imp hph.trans fun ⟨k, hlow, hhigh, hk⟩ => ⟨k, hlow, ?_, hposition.trans hk⟩⟩
    rw [hts]
    rwa [List.count_cons_of_ne hseq] at hhigh

/-- Settles O21: from the BSAMPLE on, the step number stays below that of the next one. -/
theorem bankIsSampledOncePerFrame : Obligations.BankIsSampledOncePerFrame := by
  refine ⟨fun s t h => step_fb h, fun s t ts hs hpos hno hcount h => ?_⟩
  obtain ⟨u, hu, hrun⟩ := run_succ_inv h
  have hturn : sequencerTurn { s with sched := ts } = .next u := takeTurn_of_step hs hu
  have hph : s.ph = Ph.bsample := congrArg Prod.fst hpos
  have hts : u.sched = ts := by rw [step_sched hu, hs, List.tail_cons]
  rw [sequencerTurn_bsample (s := { s with sched := ts }) hph, exec_bsample] at hturn
  injection hturn with hturn
  have hheld : SampleHeld s.bank u := by
    refine ⟨by rw [← hturn]; rfl, hts ▸ hno, .inr ⟨1, by omega, by rw [hts]; omega, ?_⟩⟩
    rw [← hturn]; rfl
  rw [← hts] at hrun
  exact (run_schedule_keeps (P := SampleHeld s.bank) (fun _ _ _ _ hx hP => sampleHeld_step hx hP) hheld hrun).1.fb

/-! ### The first write of each line -/

/-- The step number at which a line is first written after reset (70_reset_and_hazards.md R261). -/
def firstWrite : Line → Nat
  | .gUp => 1
  | .gLo => 1
  | .clk => 2
  | .oe => 193
  | .lat => 194
  | .a => 197
  | .b => 197
  | .c => 197
  | .d => 197
  | .rUp => 0
  | .bUp => 0
  | .rLo => 0
  | .bLo => 0
  | .aux => 0

theorem firstWrite_le_of_column {e : Nat} (he : e < 3) {i : Instr}
    (hi : decodePhase (BitVec.ofNat 4 (1 + e)) = .ok i) : ∀ l ∈ writtenLines i, firstWrite l ≤ 1 + e := by
  interval_cases e <;> obtain rfl := Except.ok.inj hi <;> decide

theorem firstWrite_le_of_rowEnd {e : Nat} (he : e < 6) {i : Instr}
    (hi : decodePhase (BitVec.ofNat 4 (4 + e)) = .ok i) : ∀ l ∈ writtenLines i, firstWrite l ≤ 193 + e := by
  interval_cases e <;> obtain rfl := Except.ok.inj hi <;> decide

/-- Before its first write no step writes a line. -/
theorem notMem_writtenLines_of_lt {k : Nat} {l : Line} {i : Instr} (hk : k < firstWrite l)
    (hi : decodePhase (positionAt k).1 = .ok i) : l ∉ writtenLines i := by
  intro hl
  rcases stepNumber_cases k with ⟨f, rfl⟩ | ⟨f, r, c, e, hr, hc, he, rfl⟩ | ⟨f, r, e, hr, he, rfl⟩
  · rw [positionAt_frame] at hi
    obtain rfl : Instr.bsample = i := Except.ok.inj hi
    exact List.not_mem_nil hl
  · rw [positionAt_column hr hc he] at hi
    have hle := firstWrite_le_of_column he hi l hl
    omega
  · rw [positionAt_rowEnd hr he] at hi
    have hle := firstWrite_le_of_rowEnd he hi l hl
    omega

/-- A step of the sequencer changes the lines its phase writes, and in a fault none. -/
theorem sequencerTurn_line_of_notMem {s t : State} (h : sequencerTurn s = .next t) {l : Line}
    (hl : ∀ i, decodePhase s.ph = .ok i → l ∉ writtenLines i) : t.line l = s.line l := by
  cases hd : decodePhase s.ph with
  | ok i => exact exec_line_of_notMem ((sequencerTurn_of_decode hd).symm.trans h) (hl i hd)
  | error e =>
    rw [sequencerTurn_reserved hd] at h; injection h with h; subst h
    rfl

/-- After `k` steps of the sequencer alone from a reset state: the step number, and the lines not yet written. -/
structure BeforeFirstWrite (i : InitLevels) (k : Nat) (s : State) : Prop where
  sched    : s.sched = []
  position : s.ph = Ph.fhold ∨ s.position = positionAt k
  lines    : ∀ l, k ≤ firstWrite l → s.line l = lineOf (resetOut i) l

theorem beforeFirstWrite_step {i : InitLevels} {k : Nat} {s t : State} (hs : BeforeFirstWrite i k s)
    (h : Machine.step s = .next t) : BeforeFirstWrite i (k + 1) t := by
  obtain ⟨hsched, hpos, hlines⟩ := hs
  have hturn : sequencerTurn s = .next t := (step_empty (step_next h).1 hsched).symm.trans h
  have hk : s.position = positionAt k := hpos.resolve_left (ne_fhold_of_sequencerTurn hturn)
  refine ⟨by rw [step_sched h, hsched]; rfl, ?_, fun l hl => ?_⟩
  · by_cases hhold : t.ph = Ph.fhold
    · exact .inl hhold
    · exact .inr (position_step hk hturn hhold)
  · rw [← hlines l (by omega)]
    refine sequencerTurn_line_of_notMem hturn fun j hj => notMem_writtenLines_of_lt hl ?_
    rwa [← ph_of_position hk]

/-- Settles O22: each clause is the line's step number in `firstWrite`. -/
theorem linesKeepInitLevelsUntilFirstWrite : Obligations.LinesKeepInitLevelsUntilFirstWrite := by
  intro cfg mem k t h
  have hstart : BeforeFirstWrite cfg.initLevels 0 (powerOn cfg mem []) := ⟨rfl, .inr rfl, fun _ _ => rfl⟩
  obtain ⟨-, -, hlines⟩ := run_keeps (P := BeforeFirstWrite cfg.initLevels) (n := k)
    (fun _ _ _ _ hs hstep => beforeFirstWrite_step hs hstep) (k := 0) (by omega) hstart h
  rw [Nat.zero_add] at hlines
  have hinit : ∀ l, k ≤ firstWrite l → t.line l = _ := fun l hl => (hlines l hl).trans (lineOf_resetOut cfg.initLevels l)
  exact ⟨fun hk => ⟨hinit .gUp hk, hinit .gLo hk⟩, hinit .clk, hinit .oe, hinit .lat,
    fun hk => ⟨hinit .a hk, hinit .b hk, hinit .c hk, hinit .d hk⟩⟩

/-! ### The row end -/

/-- The state an operation leaves, or the same state where it stops. -/
def nextState (i : Instr) (s : State) : State :=
  match exec i s with
  | .next t => t
  | .fault _ => s
  | .refused _ => s

/-- The state after the first `n` operations of ROWEND (30_encoding.md R113). -/
def rowEndState (s : State) (n : Nat) : State := (rowEnd.take n).foldl (fun t i => nextState i t) s

/-- From BLANK the sequencer runs ROWEND, whatever the state. -/
theorem rowEnd_sequencerTurn {s : State} (hph : s.ph = Ph.blank) {n : Nat} (hn : n < 6) :
    sequencerTurn (rowEndState s n) = .next (rowEndState s (n + 1)) := by
  interval_cases n
  · exact sequencerTurn_blank hph
  · exact sequencerTurn_latl rfl
  · exact sequencerTurn_lwait rfl
  · exact sequencerTurn_lath rfl
  · exact sequencerTurn_addr rfl
  · exact sequencerTurn_unblank rfl

theorem rowEndState_mem_sched (s : State) {n : Nat} (hn : n ≤ 6) :
    (rowEndState s n).mem = s.mem ∧ (rowEndState s n).sched = s.sched := by
  interval_cases n <;> exact ⟨rfl, rfl⟩

/-- OE, LAT and the row address after each step of the row end; CLK keeps its level. -/
theorem rowEndState_lines (s : State) : ∀ x ∈ [(1, true, s.line .lat, addrOf s.out), (2, true, false, addrOf s.out),
    (3, true, false, addrOf s.out), (4, true, true, addrOf s.out), (5, true, true, s.row), (6, false, true, s.row)],
    (rowEndState s x.1).line .oe = x.2.1 ∧ (rowEndState s x.1).line .lat = x.2.2.1 ∧
      addrOf (rowEndState s x.1).out = x.2.2.2 ∧ (rowEndState s x.1).line .clk = s.line .clk := by
  intro x hx
  simp only [List.mem_cons, List.not_mem_nil, or_false] at hx
  obtain rfl | rfl | rfl | rfl | rfl | rfl := hx <;>
    simp [rowEndState, rowEnd, nextState, lineOf_out, addr_setLine, lineOf_addrWrites_of_ne]

/-- Settles O19: the run with the sequencer alone is ROWEND. -/
theorem rowEndBlanksLatchesAddressesUnblanks : Obligations.RowEndBlanksLatchesAddressesUnblanks := by
  intro s hframes hsched hph x hx
  have hle : x.1 ≤ 6 := by
    have hall : ∀ y ∈ [1, 2, 3, 4, 5, 6], y ≤ 6 := by decide
    exact hall x.1 (List.mem_map_of_mem (f := Prod.fst) hx)
  obtain ⟨t, ht, hP⟩ := run_progress (P := fun k t => t = rowEndState s k) (n := 6)
    (fun k t hk ht => by
      subst ht
      obtain ⟨hmem, hs⟩ := rowEndState_mem_sched s (Nat.le_of_lt hk)
      exact ⟨_, (step_empty (hmem ▸ hframes) (hs.trans hsched)).trans (rowEnd_sequencerTurn hph hk), rfl⟩)
    (j := x.1) (k := 0) (by omega) rfl
  rw [Nat.zero_add] at hP
  subst hP
  exact ⟨_, ht, rowEndState_lines s x hx⟩

end Sys2Proof.Proofs


/-! Row 15 of a frame, shown while row 0 of the next is shifted (42_row_scan.md R178, 70_reset_and_hazards.md R272). -/

namespace Sys2Proof.Proofs

open Sys2Proof.Machine Sys2Proof.Laws

theorem unblank_showsRowFifteen {s t : State} (hinv : Inv s) (hph : s.ph = Ph.unblank) (hrow : s.row = 15#4)
    (h : sequencerTurn s = .next t) : t.ph = Ph.bsample ∧ ShowsRowFifteen t := by
  rw [sequencerTurn_unblank hph, exec_unblank] at h
  injection h with h; subst h
  have hlat : s.line .lat = true := hinv.latHigh (.inr (.inl hph))
  have haddr : addrOf s.out = 15#4 := (hinv.addrNow hph).trans hrow
  exact ⟨by simp [hrow], by simp, by simp [lineOf_out, hlat], by simp [addr_setLine, haddr]⟩

/-- A step that writes none of OE, LAT and the address lines keeps the row shown. -/
theorem showsRowFifteen_of_lines {s t : State} (hs : ShowsRowFifteen s)
    (h : ∀ l ∈ [Line.oe, .lat, .a, .b, .c, .d], t.line l = s.line l) : ShowsRowFifteen t where
  oe := (h .oe (by decide)).trans hs.oe
  lat := (h .lat (by decide)).trans hs.lat
  addr := (addrOf_congr (h .a (by decide)) (h .b (by decide)) (h .c (by decide)) (h .d (by decide))).trans hs.addr

/-- BSAMPLE and the column shift of row 0 write only CLK and the data lines, and lead on to BLANK. -/
theorem seqStep_beforeRowZeroEnds {s t : State} (h : SeqStep s t) (hs : beforeRowZeroEnds s) :
    (∀ l ∈ [Line.oe, .lat, .a, .b, .c, .d], t.line l = s.line l) ∧
      (beforeRowZeroEnds t ∨ t.ph = Ph.blank ∧ t.row = 0#4 ∨ t.ph = Ph.fhold) := by
  cases h with
  | bsample => exact ⟨fun _ _ => rfl, .inl (.inr ⟨.inl rfl, rfl⟩)⟩
  | dataUnwritten | dataOob | reserved => exact ⟨fun _ _ => rfl, .inr (.inr rfl)⟩
  | dataPair hph | clkh hph => exact ⟨by simp [lineOf_out], by simp_all [beforeRowZeroEnds, inShift]⟩
  | clkl hph =>
    exact ⟨by simp [lineOf_out], by by_cases hc : s.col = 63#6 <;> simp_all [beforeRowZeroEnds, inShift]⟩
  | blank hph | latl hph | lwait hph | lath hph | addr hph | unblank hph => simp [beforeRowZeroEnds, inShift, hph] at hs

theorem step_showsRowFifteen {s t : State} (hs : ShowsRowFifteen s) (hbefore : beforeRowZeroEnds s)
    (hreset : s.nextTurn ≠ .reset) (h : Machine.step s = .next t) :
    ShowsRowFifteen t ∧ (beforeRowZeroEnds t ∨ t.ph = Ph.blank ∧ t.row = 0#4 ∨ t.ph = Ph.fhold) := by
  rcases step_cases h with ⟨-, hstep⟩ | ⟨hr, -⟩ | ⟨-, rfl | rfl⟩
  · obtain ⟨hlines, hphase⟩ := seqStep_beforeRowZeroEnds hstep hbefore
    exact ⟨showsRowFifteen_of_lines hs hlines, hphase⟩
  · exact absurd hr hreset
  · exact ⟨showsRowFifteen_of_lines hs fun _ _ => rfl, .inl hbefore⟩
  · exact ⟨showsRowFifteen_of_lines hs fun _ _ => rfl, .inl hbefore⟩

/-- The step numbers from BSAMPLE to the last of the shift of row 0. -/
theorem beforeRowZeroEnds_of_position {s : State} {j : Nat} (hj : j < 193) (hpos : s.position = positionAt (3169 + j)) :
    beforeRowZeroEnds s := by
  rcases Nat.eq_zero_or_pos j with rfl | hj0
  · exact .inl (congrArg Prod.fst (hpos.trans (positionAt_frame 1)))
  · have hcol := positionAt_column (f := 1) (r := 0) (c := (j - 1) / 3) (e := (j - 1) % 3) (by omega) (by omega)
      (by omega)
    rw [show 3169 * 1 + 1 + 198 * 0 + 3 * ((j - 1) / 3) + (j - 1) % 3 = 3169 + j by omega, ← hpos] at hcol
    simp only [State.position, Prod.mk.injEq] at hcol
    obtain ⟨hph, hrow, -⟩ := hcol
    refine .inr ⟨?_, hrow⟩
    rw [hph]
    have he : (j - 1) % 3 < 3 := by omega
    interval_cases (j - 1) % 3 <;> decide

/-- A good state of the invariant that may run and stands at a step number is in the scan. -/
theorem scanning_of_inv {k : Nat} {s : State} (hready : readyToRun s) (hinv : Inv s) (hgood : s.good)
    (hpos : s.position = positionAt k) : Scanning k s := ⟨hready, hgood, hpos, hinv.fbWritten⟩

/-- The sequencer alone in the frame after the one whose row 15 shows, `j` steps after its BSAMPLE was reached. -/
structure ShowsThroughShift (j : Nat) (s : State) : Prop where
  scanning : Scanning (3169 + j) s
  sched    : s.sched = []
  shows    : ShowsRowFifteen s

theorem showsThroughShift_step {j : Nat} {s : State} (hj : j < 193) (hs : ShowsThroughShift j s) :
    ∃ t, Machine.step s = .next t ∧ ShowsThroughShift (j + 1) t := by
  obtain ⟨t, ht, -, hnext, hsched⟩ := scanning_step_sequencer hs.scanning hs.sched
  have hreset : s.nextTurn ≠ .reset := by rw [State.nextTurn, hs.sched]; decide
  exact ⟨t, ht, hnext, hsched,
    (step_showsRowFifteen hs.shows (beforeRowZeroEnds_of_position hj hs.scanning.position) hreset ht).1⟩

/-- The UNBLANK of row 15 is the last step of a frame. -/
theorem showsThroughShift_of_unblank {s : State} (hready : readyToRun s) (hinv : Inv s) (hsched : s.sched = [])
    (hph : s.ph = Ph.unblank) (hrow : s.row = 15#4) : ∃ t, Machine.step s = .next t ∧ ShowsThroughShift 0 t := by
  have hcol : s.col = 0#6 := hinv.colZero (.inr (by simp [inRowEnd, hph]))
  have hgood : s.good := by
    have hfault : ¬ s.fault = true := fun hf => absurd ((hinv.faultIffHold.1 hf).symm.trans hph) (by decide)
    simpa using hfault
  have hpos : s.position = positionAt 3168 := by
    rw [State.position, hph, hrow, hcol]
    exact (positionAt_rowEnd (f := 0) (r := 15) (e := 5) (by decide) (by decide)).symm
  obtain ⟨t, ht, -, hnext, hsched'⟩ := scanning_step_sequencer (scanning_of_inv hready hinv hgood hpos) hsched
  exact ⟨t, ht, hnext, hsched',
    (unblank_showsRowFifteen hinv hph hrow ((step_empty hready.1 hsched).symm.trans ht)).2⟩

/-- Settles O20: the UNBLANK of row 15, the step of the shift of row 0, and the run of both up to BLANK. -/
theorem laterFramesShowRowFifteenWhileRowZeroShifts : Obligations.LaterFramesShowRowFifteenWhileRowZeroShifts := by
  refine ⟨fun s t hinv hph hrow hseq h => ?_, fun s t => step_showsRowFifteen, fun s hready hinv hsched hph hrow => ?_⟩
  · obtain ⟨-, hturn⟩ := step_next h
    rw [hseq] at hturn
    exact unblank_showsRowFifteen (s := s.popTurn) (inv_congr hinv rfl) hph hrow hturn
  · obtain ⟨u, hu, hshow⟩ := showsThroughShift_of_unblank hready hinv hsched hph hrow
    have hrun : ∀ j, j ≤ 193 → ∃ t, Host.Core.run Sys2Proof.core (j + 1) s = .next t ∧ ShowsThroughShift j t := by
      intro j hj
      obtain ⟨t, ht, hP⟩ := run_progress (P := ShowsThroughShift) (n := 193) (fun _ _ hk hs => showsThroughShift_step hk hs)
        (j := j) (k := 0) (by omega) hshow
      exact ⟨t, (run_succ_next hu).trans ht, Nat.zero_add j ▸ hP⟩
    constructor
    · intro k hlow hhigh
      obtain ⟨t, ht, hP⟩ := hrun (k - 1) (by omega)
      exact ⟨t, by rwa [Nat.sub_add_cancel hlow] at ht, hP.shows⟩
    · obtain ⟨t, ht, hscan, hs, -⟩ := hrun 193 (le_refl _)
      have hblank : t.ph = Ph.blank := (ph_of_position hscan.position).trans
        (congrArg Prod.fst (positionAt_rowEnd (f := 1) (r := 0) (e := 0) (by decide) (by decide)))
      have hstep : Machine.step t = exec .blank t := (step_empty hscan.ready.1 hs).trans (sequencerTurn_blank hblank)
      exact ⟨_, (run_add 1 ht).trans (run_one (hstep.trans (exec_blank t))), by simp⟩

end Sys2Proof.Proofs

/-! The operations of a frame in the order of the step numbers (42_row_scan.md R174, 30_encoding.md R113): each repeated
piece is the image of its range of step numbers. -/

namespace Sys2Proof.Proofs

open Sys2Proof.Machine Sys2Proof.Laws

/-- A list repeated `n` times is the image of a range, where it is the image of each piece of the range. -/
theorem flatten_replicate_eq_map_range' {α : Type} (f : Nat → α) (l : List α) (start len : Nat) : ∀ n : Nat,
    (∀ i, i < n → l = (List.range' (start + len * i) len).map f) →
    (List.replicate n l).flatten = (List.range' start (len * n)).map f
  | 0, _ => rfl
  | n + 1, h => by
    rw [List.replicate_succ', List.flatten_concat,
      flatten_replicate_eq_map_range' f l start len n fun i hi => h i (by omega), Nat.mul_succ, ← List.range'_append_1,
      List.map_append, ← h n (by omega)]

/-- The word of the PH code that the step numbering gives a step. -/
def wordAt (k : Nat) : EncWord := .ph4 (positionAt k).1

theorem column_words {r c : Nat} (hr : r < 16) (hc : c < 64) :
    column.map encode = (List.range' (1 + 198 * r + 3 * c) 3).map wordAt := by
  have hphase : ∀ e, e < 3 → wordAt (1 + 198 * r + 3 * c + e) = .ph4 (BitVec.ofNat 4 (1 + e)) := by
    intro e he
    have hpos := positionAt_column (f := 0) hr hc he
    rw [show 3169 * 0 + 1 + 198 * r + 3 * c + e = 1 + 198 * r + 3 * c + e by omega] at hpos
    rw [wordAt, hpos]
  have h0 := hphase 0 (by decide)
  have h1 := hphase 1 (by decide)
  have h2 := hphase 2 (by decide)
  show [_, _, _] = [wordAt _, wordAt _, wordAt _]
  exact congrArg₂ List.cons h0.symm (congrArg₂ List.cons h1.symm (congrArg₂ List.cons h2.symm rfl))

theorem rowEnd_words {r : Nat} (hr : r < 16) :
    rowEnd.map encode = (List.range' (1 + 198 * r + 192) 6).map wordAt := by
  have hphase : ∀ e, e < 6 → wordAt (1 + 198 * r + 192 + e) = .ph4 (BitVec.ofNat 4 (4 + e)) := by
    intro e he
    have hpos := positionAt_rowEnd (f := 0) hr he
    rw [show 3169 * 0 + 1 + 198 * r + 192 + e = 1 + 198 * r + 192 + e by omega] at hpos
    rw [wordAt, hpos]
  rw [List.range'_eq_map_range, List.map_map]
  have hwords : rowEnd.map encode = (List.range 6).map fun e => EncWord.ph4 (BitVec.ofNat 4 (4 + e)) := by decide
  rw [hwords]
  exact List.map_congr_left fun e he => (hphase e (List.mem_range.1 he)).symm

theorem scanRow_words {r : Nat} (hr : r < 16) : scanRow.map encode = (List.range' (1 + 198 * r) 198).map wordAt := by
  have hcols := flatten_replicate_eq_map_range' wordAt (column.map encode) (1 + 198 * r) 3 64
    fun c hc => column_words hr hc
  rw [scanRow, List.map_append, List.map_flatten, List.map_replicate, hcols, rowEnd_words hr, ← List.map_append,
    List.range'_append_1]

theorem frameOps_words : frameOps.map encode = (List.range 3169).map wordAt := by
  have hrows := flatten_replicate_eq_map_range' wordAt (scanRow.map encode) 1 198 16 fun r hr => scanRow_words hr
  have hrange : List.range 3169 = 0 :: List.range' 1 3168 := List.range_eq_range'
  rw [frameOps, List.map_cons, List.map_flatten, List.map_replicate, hrows, hrange]
  rfl

theorem length_scanRow : scanRow.length = 198 := by
  rw [← List.length_map (f := encode), scanRow_words (r := 0) (by decide), List.length_map, List.length_range']

/-- Settles O23: a frame is BSAMPLE and 16 rows of 64 columns and a row end, each piece at its step numbers. -/
theorem frameOperationsFollowTheStepNumbers : Obligations.FrameOperationsFollowTheStepNumbers := by
  refine ⟨rfl, rfl, rfl, length_scanRow, ?_, fun _ => rfl, frameOps_words⟩
  rw [← List.length_map (f := encode), frameOps_words, List.length_map, List.length_range]

end Sys2Proof.Proofs

/-! The runs of an endless fair schedule (00_scope.md R25, 92_eei_decisions.md D18): the sequencer's moves grow by at most
one a move and without end, and the step number with them. -/

namespace Sys2Proof.Proofs

open Sys2Proof.Machine Sys2Proof.Laws

/-- The moves of the sequencer among the first `n` of an endless schedule. -/
def sequencerMoves (turns : Nat → Turn) : Nat → Nat
  | 0 => 0
  | n + 1 => sequencerMoves turns n + if turns n = .sequencer then 1 else 0

theorem sequencerMoves_succ_le (turns : Nat → Turn) (n : Nat) :
    sequencerMoves turns n ≤ sequencerMoves turns (n + 1) ∧ sequencerMoves turns (n + 1) ≤ sequencerMoves turns n + 1 := by
  rw [sequencerMoves]
  split_ifs <;> omega

theorem sequencerMoves_mono (turns : Nat → Turn) : Monotone (sequencerMoves turns) :=
  monotone_nat_of_le_succ fun n => (sequencerMoves_succ_le turns n).1

/-- Under a fair schedule the sequencer moves as often as one likes. -/
theorem sequencerMoves_unbounded {turns : Nat → Turn} (h : fair turns) : ∀ N, ∃ m, N ≤ sequencerMoves turns m
  | 0 => ⟨0, Nat.zero_le _⟩
  | N + 1 => by
    obtain ⟨m, hm⟩ := sequencerMoves_unbounded h N
    obtain ⟨m', hle, hturn⟩ := h m
    have hmono := sequencerMoves_mono turns hle
    refine ⟨m' + 1, ?_⟩
    rw [sequencerMoves, if_pos hturn]
    omega

/-- The count goes up by at most one a move, so it meets every number above its value at `n`, after `n`. -/
theorem exists_sequencerMoves_eq {turns : Nat → Turn} (h : fair turns) {n T : Nat} (hT : sequencerMoves turns n < T) :
    ∃ m, n ≤ m ∧ sequencerMoves turns m = T := by
  have hex := sequencerMoves_unbounded h T
  have hreach := Nat.find_spec hex
  have hlt : n < Nat.find hex := by
    by_contra hle
    have := sequencerMoves_mono turns (Nat.le_of_not_lt hle)
    omega
  obtain ⟨m, hm⟩ : ∃ m, Nat.find hex = m + 1 := ⟨Nat.find hex - 1, by omega⟩
  have hbefore : ¬ T ≤ sequencerMoves turns m := Nat.find_min hex (by omega)
  have hstep := (sequencerMoves_succ_le turns m).2
  rw [hm] at hreach hlt
  exact ⟨m + 1, Nat.le_of_lt hlt, by omega⟩

/-- Every fault-free state of the invariant stands at a step number. -/
theorem exists_positionAt_of_inv {s : State} (hinv : Inv s) (hgood : s.good) : ∃ k, s.position = positionAt k := by
  have hrow := s.row.isLt
  have hcol := s.col.isLt
  have ofShift : ∀ e, e < 3 → s.ph = BitVec.ofNat 4 (1 + e) → ∃ k, s.position = positionAt k := by
    intro e he hph
    refine ⟨_, Eq.trans ?_ (positionAt_column (f := 0) hrow hcol he).symm⟩
    rw [State.position, hph, BitVec.ofNat_toNat, BitVec.setWidth_eq, BitVec.ofNat_toNat, BitVec.setWidth_eq]
  have ofRowEnd : ∀ e, e < 6 → s.ph = BitVec.ofNat 4 (4 + e) → inRowEnd s.ph → ∃ k, s.position = positionAt k := by
    intro e he hph hin
    refine ⟨_, Eq.trans ?_ (positionAt_rowEnd (f := 0) hrow he).symm⟩
    rw [State.position, hinv.colZero (.inr hin), hph, BitVec.ofNat_toNat, BitVec.setWidth_eq]
  rcases hinv.phLegal with hph | hin | hin | hph
  · exact ⟨0, by rw [State.position, hph, hinv.rowZero hph, hinv.colZero (.inl hph)]; rfl⟩
  · rcases hin with hph | hph | hph
    · exact ofShift 0 (by decide) hph
    · exact ofShift 1 (by decide) hph
    · exact ofShift 2 (by decide) hph
  · rcases id hin with hph | hph | hph | hph | hph | hph
    · exact ofRowEnd 0 (by decide) hph hin
    · exact ofRowEnd 1 (by decide) hph hin
    · exact ofRowEnd 2 (by decide) hph hin
    · exact ofRowEnd 3 (by decide) hph hin
    · exact ofRowEnd 4 (by decide) hph hin
    · exact ofRowEnd 5 (by decide) hph hin
  · exact absurd hph (inv_ne_fhold hinv hgood)

/-- Along an admitted endless schedule the scan goes on, one step number a move of the sequencer. -/
theorem runFair_scanning {turns : Nat → Turn} {s : State} {k : Nat} (hs : Scanning k s)
    (hreset : ∀ n, turns n ≠ .reset) (hadmitted : ∀ n t, runFair turns n s = .next t → admittedTurn t (turns n)) :
    ∀ n, ∃ t, runFair turns n s = .next t ∧ Scanning (k + sequencerMoves turns n) t
  | 0 => ⟨s, rfl, hs⟩
  | n + 1 => by
    obtain ⟨t, ht, hscan⟩ := runFair_scanning hs hreset hadmitted n
    have hplaced : Scanning (k + sequencerMoves turns n) { t with sched := [] } := scanning_congr hscan rfl
    have hstep : runFair turns (n + 1) s = takeTurn (turns n) { t with sched := [] } := by
      rw [runFair, ht]
      exact step_cons (s := { t with sched := [turns n] }) hscan.ready.1 rfl
    rw [hstep, sequencerMoves]
    by_cases hseq : turns n = .sequencer
    · obtain ⟨u, hu, -, hnext⟩ := scanning_sequencer hplaced
      rw [if_pos hseq, hseq]
      exact ⟨u, hu, hnext⟩
    · rw [if_neg hseq]
      obtain ⟨u, hu, rfl | rfl⟩ := bankTurn_ok (s := { t with sched := [] }) hseq (hreset n) (hadmitted n t ht)
      · exact ⟨_, hu, hplaced⟩
      · exact ⟨_, hu, scanning_congr hplaced rfl⟩

/-- Settles O50: the step number grows without a gap and without end, and every 3169th one is the LATH of row 0. -/
theorem fairRunsLatchAgainAndAgain : Obligations.FairRunsLatchAgainAndAgain := by
  intro turns s hready hinv hgood hfair hreset hadmitted
  obtain ⟨k, hpos⟩ := exists_positionAt_of_inv hinv hgood
  have hscan := runFair_scanning (scanning_of_inv hready hinv hgood hpos) hreset hadmitted
  refine ⟨fun n => ?_, fun n => ?_⟩
  · obtain ⟨t, ht, hs⟩ := hscan n
    exact ⟨t, ht, hs.good⟩
  · obtain ⟨f, hf⟩ : ∃ f, f = k + sequencerMoves turns n := ⟨_, rfl⟩
    obtain ⟨m, hle, hm⟩ := exists_sequencerMoves_eq hfair (n := n)
      (T := 3169 * f + 1 + 198 * 0 + 192 + 3 - k) (by omega)
    obtain ⟨t, ht, hs⟩ := hscan m
    refine ⟨m, t, hle, ht, (ph_of_position hs.position).trans ?_⟩
    rw [hm, Nat.add_sub_cancel' (by omega)]
    exact congrArg Prod.fst (positionAt_rowEnd (f := f) (r := 0) (e := 3) (by decide) (by decide))

end Sys2Proof.Proofs


/-! The timed refinement (70_reset_and_hazards.md R266, R274): a timed step is a step of the machine with a duration, and
the wait that LWAIT is refused before keeps LAT low for LATCH_DELAY. -/

namespace Sys2Proof.Proofs

open Sys2Proof.Machine Sys2Proof.Laws

/-- What a timed step is: a step of the machine that is no LWAIT before its time. -/
theorem timedStep_eq_some_iff {d : Nat} {x y : Timed} : timedStep d x = some y ↔
    (atPhase Ph.lwait x.base → latchDelayOver x (x.now + d) = true) ∧ ∃ s, Machine.step x.base = .next s ∧
      y = { base := s, now := x.now + d, latlAt := if atPhase Ph.latl x.base then some (x.now + d) else x.latlAt } := by
  unfold timedStep
  by_cases hearly : atPhase Ph.lwait x.base ∧ latchDelayOver x (x.now + d) = false
  · rw [if_pos hearly]
    refine ⟨nofun, fun ⟨hwait, _⟩ => ?_⟩
    rw [hwait hearly.1] at hearly
    nomatch hearly.2
  · rw [if_neg hearly]
    have hwait : atPhase Ph.lwait x.base → latchDelayOver x (x.now + d) = true := by
      intro hat; simpa [hat] using hearly
    cases hstep : Machine.step x.base with
    | next s =>
      exact ⟨fun h => ⟨hwait, s, rfl, (Option.some.inj h).symm⟩,
        fun ⟨_, u, hu, hy⟩ => Host.Outcome.next.inj hu ▸ congrArg some hy.symm⟩
    | fault r => simp
    | refused r => simp

theorem latchDelayOver_iff {x : Timed} {t t0 : Nat} (h : x.latlAt = some t0) :
    latchDelayOver x t = true ↔ t0 + x.base.cfg.latchDelay ≤ t := by
  rw [latchDelayOver, h, decide_eq_true_eq]

/-- LWAIT is entered from LATL, with LAT low. -/
theorem seqStep_to_lwait {s t : State} (h : SeqStep s t) (hph : t.ph = Ph.lwait) :
    s.ph = Ph.latl ∧ t.line .lat = false := by
  cases h with
  | latl hs => exact ⟨hs, by simp⟩
  | clkl _ => by_cases hc : s.col = 63#6 <;> simp [hc] at hph
  | unblank _ => by_cases hr : s.row = 15#4 <;> simp [hr] at hph
  | bsample | dataUnwritten | dataPair | dataOob | clkh | blank | lwait | lath | addr | reserved => simp at hph

/-- LATH is entered from LWAIT, and LAT keeps its level. -/
theorem seqStep_to_lath {s t : State} (h : SeqStep s t) (hph : t.ph = Ph.lath) :
    s.ph = Ph.lwait ∧ t.line .lat = s.line .lat := by
  cases h with
  | lwait hs => exact ⟨hs, rfl⟩
  | clkl _ => by_cases hc : s.col = 63#6 <;> simp [hc] at hph
  | unblank _ => by_cases hr : s.row = 15#4 <;> simp [hr] at hph
  | bsample | dataUnwritten | dataPair | dataOob | clkh | blank | latl | lath | addr | reserved => simp at hph

/-- A step of the sequencer keeps the latch delay: LATL starts the wait, and LWAIT ends it in time. -/
theorem timedInv_sequencer {d : Nat} {x : Timed} {s : State} (hx : TimedInv x) (hseq : x.base.nextTurn = .sequencer)
    (hstep : SeqStep x.base.popTurn s)
    (hwait : atPhase Ph.lwait x.base → latchDelayOver x (x.now + d) = true) : TimedInv
      { base := s, now := x.now + d, latlAt := if atPhase Ph.latl x.base then some (x.now + d) else x.latlAt } := by
  constructor
  · intro hph
    obtain ⟨hlatl, hlow⟩ := seqStep_to_lwait hstep hph
    exact ⟨hlow, x.now + d, if_pos ⟨hseq, hlatl⟩, Nat.le_refl _⟩
  · intro hph
    obtain ⟨hlwait, hkeep⟩ := seqStep_to_lath hstep hph
    replace hlwait : x.base.ph = Ph.lwait := hlwait
    obtain ⟨hlow, t0, ht0, -⟩ := hx.started hlwait
    have hlatl : ¬ atPhase Ph.latl x.base := fun hat => absurd (hlwait.symm.trans hat.2) (by decide)
    refine ⟨hkeep.trans hlow, t0, (if_neg hlatl).trans ht0, ?_⟩
    show t0 + s.cfg.latchDelay ≤ x.now + d
    rw [(seqStep_mem_cfg hstep).2]
    exact (latchDelayOver_iff ht0).1 (hwait ⟨hseq, hlwait⟩)

/-- The wait goes on while the phase, LAT and the delay stay and time passes. -/
theorem timedInv_congr {x y : Timed} (hx : TimedInv x) (hph : y.base.ph = x.base.ph) (hout : y.base.out = x.base.out)
    (hcfg : y.base.cfg = x.base.cfg) (hlatl : y.latlAt = x.latlAt) (hnow : x.now ≤ y.now) : TimedInv y := by
  have hlat : y.base.line .lat = x.base.line .lat := congrArg (lineOf · .lat) hout
  constructor <;> rw [hph, hlat, hlatl]
  · intro hp
    obtain ⟨hlow, t0, ht0, hle⟩ := hx.started hp
    exact ⟨hlow, t0, ht0, Nat.le_trans hle hnow⟩
  · intro hp
    obtain ⟨hlow, t0, ht0, hle⟩ := hx.waited hp
    exact ⟨hlow, t0, ht0, hcfg ▸ Nat.le_trans hle hnow⟩

theorem timedInv_step {d : Nat} {x y : Timed} (hx : TimedInv x) (h : timedStep d x = some y) : TimedInv y := by
  obtain ⟨hwait, s, hstep, rfl⟩ := timedStep_eq_some_iff.1 h
  have hnot : x.base.nextTurn ≠ .sequencer → ¬ atPhase Ph.latl x.base := fun hne hat => hne hat.1
  rcases step_cases hstep with ⟨hseq, hs⟩ | ⟨-, rfl⟩ | ⟨⟨hseq, -⟩, rfl | rfl⟩
  · exact timedInv_sequencer hx hseq hs hwait
  · exact ⟨fun hph => absurd (show Ph.bsample = Ph.lwait from hph) (by decide),
      fun hph => absurd (show Ph.bsample = Ph.lath from hph) (by decide)⟩
  · exact timedInv_congr hx rfl rfl rfl (if_neg (hnot hseq)) (Nat.le_add_right _ _)
  · exact timedInv_congr hx rfl rfl rfl (if_neg (hnot hseq)) (Nat.le_add_right _ _)

/-- Settles O51: what a timed step is, the invariant, and that a step of LATCH_DELAY is never too early. -/
theorem timedStepsKeepTheLatchDelay : Obligations.TimedStepsKeepTheLatchDelay := by
  refine ⟨fun d x y h => ?_, fun d x y => timedInv_step, fun x d s hx hstep hd => ?_⟩
  · obtain ⟨-, s, hstep, rfl⟩ := timedStep_eq_some_iff.1 h
    exact ⟨hstep, rfl, fun hat => if_pos hat, fun hat => if_neg hat⟩
  · refine ⟨_, timedStep_eq_some_iff.2 ⟨fun hat => ?_, s, hstep, rfl⟩, rfl⟩
    obtain ⟨-, t0, ht0, hle⟩ := hx.started hat.2
    exact (latchDelayOver_iff ht0).2 (by omega)

end Sys2Proof.Proofs


/-! The panel (10_state.md §6): the shift register after the column shift of a row, the output latch after its row end,
and the LEDs that are then lit. -/

namespace Sys2Proof.Proofs

open Sys2Proof.Machine Sys2Proof.Laws

/-- Settles O52: a lit LED is the conjunction that `ledLit` computes. -/
theorem panelShowsOnlyTheAddressedRow : Obligations.PanelShowsOnlyTheAddressedRow := by
  intro prm out p half row column
  exact ⟨fun hoe => by simp [ledLit, hoe], fun hoe => by simp [ledLit, hoe]⟩

/-! ### One observation -/

theorem shiftIn_zero (p : PixelPair) (sr : PairReg) : (shiftIn p sr)[0] = p := by simp [shiftIn]

theorem shiftIn_succ (p : PixelPair) (sr : PairReg) {i : Nat} (hi : i + 1 < 64) : (shiftIn p sr)[i + 1] = sr[i] := by
  simp [shiftIn]

section
variable {prm : PanelConfig} (hedge : prm.clkEdge = .rising) {out : OutWord} {p : Panel}
include hedge

theorem observe_sr_of_low (h : lineOf out .clk = false) : (p.observe prm out).sr = p.sr := by
  simp [Panel.observe, clkEdgeSeen, hedge, h]

theorem observe_sr_of_rise (hprev : p.prevClk = false) (h : lineOf out .clk = true) :
    (p.observe prm out).sr = shiftIn ⟨lineOf out .gUp, lineOf out .gLo⟩ p.sr := by
  simp [Panel.observe, clkEdgeSeen, hedge, hprev, h]

end

section
variable {prm : PanelConfig} (hmode : prm.latMode = .rise) {out : OutWord} {p : Panel}
include hmode

theorem observe_olat_of_rise (hprev : p.prevLat = false) (h : lineOf out .lat = true) :
    (p.observe prm out).olat = (p.observe prm out).sr := by
  simp [Panel.observe, latchSeen, hmode, hprev, h]

theorem observe_olat_of_high (hprev : p.prevLat = true) : (p.observe prm out).olat = p.olat := by
  simp [Panel.observe, latchSeen, hmode, hprev]

end

/-! ### The column shift -/

/-- A pair holds the two decoded pixels of column `c` of the row of `s`. -/
structure HoldsPixels (s : State) (b : Bank) (c : Nat) (p : PixelPair) : Prop where
  up : pixelBit s.cfg.tbo s.mem b (bitPosUp s.row.toNat c) = some p.up
  lo : pixelBit s.cfg.tbo s.mem b (bitPosLo s.row.toNat c) = some p.lo

theorem holdsPixels_half {s : State} {b : Bank} {c : Nat} {p : PixelPair} (h : HoldsPixels s b c p) (half : Plane) :
    pixelBit s.cfg.tbo s.mem b (bitPos half s.row.toNat c) = some (p.half half) := by
  cases half
  · exact h.up
  · exact h.lo

/-- The block and its panel after `c` columns of the row of `s` with the sequencer alone: the pair of the column clocked
`i` pulses before the last stands at SR[i]. -/
structure ShiftedColumns (s : State) (b : Bank) (c : Nat) (y : System) : Prop where
  mem     : y.block.mem = s.mem
  cfg     : y.block.cfg = s.cfg
  row     : y.block.row = s.row
  fb      : y.block.fb = some b
  sched   : y.block.sched = []
  ph      : y.block.ph = if c = 64 then Ph.blank else Ph.data
  col     : y.block.col = BitVec.ofNat 6 c
  clk     : y.block.line .clk = false
  prevClk : y.panel.prevClk = false
  pairs   : ∀ (i : Nat) (hi : i < 64), i < c → HoldsPixels s b (c - 1 - i) y.panel.sr[i]

/-- The observed run of one column: DATA, CLKH, CLKL. -/
theorem run_column {prm : PanelConfig} {y : System} {t1 : State} (hframes : framesAdmitted y.block.mem)
    (hsched : y.block.sched = []) (hdata : sequencerTurn y.block = .next t1) (hph : t1.ph = Ph.clkh) :
    ∃ t2 t3, y.run prm 3 = .next ⟨t3, ((y.panel.observe prm t1.out).observe prm t2.out).observe prm t3.out⟩ ∧
      t2 = State.complete [] [(.clk, true)] { t1 with ph := Ph.clkl } ∧
      t3 = State.complete [] [(.clk, false)]
        { t2 with col := t2.col + 1#6, ph := if t2.col = 63#6 then Ph.blank else Ph.data } := by
  obtain ⟨hmem, -, -, hsched1, -⟩ := seq_next_keeps hdata
  rw [← hmem] at hframes
  have h1 := sysStep (prm := prm) (hmem ▸ hframes) hsched hdata
  have h2 := sysStep (prm := prm) (x := ⟨t1, y.panel.observe prm t1.out⟩) hframes (hsched1.trans hsched)
    ((sequencerTurn_clkh hph).trans (exec_clkh t1))
  exact ⟨_, _, (sysRun_succ h1).trans ((sysRun_succ h2).trans (sysRun_succ (sysStep (x := ⟨_, _⟩) hframes
    (hsched1.trans hsched) ((sequencerTurn_clkl rfl).trans (exec_clkl _))))), rfl, rfl⟩

theorem observe_column {prm : PanelConfig} (hedge : prm.clkEdge = .rising) {p : Panel} {o1 o2 o3 : OutWord}
    (h1 : lineOf o1 .clk = false) (h2 : lineOf o2 .clk = true) (h3 : lineOf o3 .clk = false) :
    (((p.observe prm o1).observe prm o2).observe prm o3).sr = shiftIn ⟨lineOf o2 .gUp, lineOf o2 .gLo⟩ p.sr := by
  rw [observe_sr_of_low hedge h3, observe_sr_of_rise hedge h1 h2, observe_sr_of_low hedge h1]

/-- One column: DATA, CLKH and CLKL shift its pair into the panel. -/
theorem shiftedColumns_succ {prm : PanelConfig} (hedge : prm.clkEdge = .rising) {s : State} {b : Bank} {c : Nat}
    {y : System} (hframes : framesAdmitted s.mem) (hbound : TboInBound s.cfg.tbo s.mem b) (hc : c < 64)
    (h : ShiftedColumns s b c y) : ∃ z, y.run prm 3 = .next z ∧ ShiftedColumns s b (c + 1) z := by
  obtain ⟨hmem, hcfg, hrow, hfb, hsched, hph, hcol, hclk, -, hpairs⟩ := h
  rw [if_neg (by omega)] at hph
  have hcolNat : y.block.col.toNat = c := by rw [hcol]; exact Nat.mod_eq_of_lt hc
  have hlast : y.block.col = 63#6 ↔ c + 1 = 64 := by
    rw [← BitVec.toNat_inj, hcolNat]
    show c = 63 ↔ c + 1 = 64
    omega
  obtain ⟨u, l, hu, hl, hexec⟩ := exec_data_of_bound hfb (by rw [hmem, hcfg]; exact hbound)
  have hdata := (sequencerTurn_data hph).trans hexec
  obtain ⟨t2, t3, hrun, ht2, ht3⟩ := run_column (prm := prm) (hmem ▸ hframes) hsched hdata rfl
  have hpair : HoldsPixels s b c ⟨u.bit, l.bit⟩ := by
    rw [hmem, hcfg, hrow, hcolNat] at hu hl
    exact ⟨pixelBit_of_read hu, pixelBit_of_read hl⟩
  have hclk1 : lineOf (dataNext b y.block (.pair u l)).out .clk = false := by simpa [dataNext, lineOf_out] using hclk
  have hclk2 : lineOf t2.out .clk = true := by simp [ht2]
  have hclk3 : lineOf t3.out .clk = false := by simp [ht3]
  have hshift : (((y.panel.observe prm (dataNext b y.block (.pair u l)).out).observe prm t2.out).observe prm t3.out).sr =
      shiftIn ⟨u.bit, l.bit⟩ y.panel.sr := by
    rw [observe_column hedge hclk1 hclk2 hclk3]
    simp [ht2, dataNext]
  refine ⟨_, hrun, ?_, ?_, ?_, ?_, ?_, ?_, ?_, hclk3, hclk3, fun i hi hic => ?_⟩
  · simpa [ht3, ht2, dataNext] using hmem
  · simpa [ht3, ht2, dataNext] using hcfg
  · simpa [ht3, ht2, dataNext] using hrow
  · simpa [ht3, ht2, dataNext] using hfb
  · simpa [ht3, ht2, dataNext] using hsched
  · simp [ht3, ht2, dataNext, hlast]
  · simp [ht3, ht2, dataNext, hcol, BitVec.ofNat_add]
  · simp only [hshift]
    cases i with
    | zero => rwa [shiftIn_zero]
    | succ i =>
      rw [shiftIn_succ _ _ hi, show c + 1 - 1 - (i + 1) = c - 1 - i by omega]
      exact hpairs i (by omega) (by omega)

/-- The columns of a row, one after the other. -/
theorem shiftedColumns_run {prm : PanelConfig} (hedge : prm.clkEdge = .rising) {s : State} {b : Bank} {x : System}
    (hframes : framesAdmitted s.mem) (hbound : TboInBound s.cfg.tbo s.mem b) (h : ShiftedColumns s b 0 x) :
    ∀ c, c ≤ 64 → ∃ y, x.run prm (3 * c) = .next y ∧ ShiftedColumns s b c y
  | 0, _ => ⟨x, rfl, h⟩
  | c + 1, hc => by
    obtain ⟨y, hy, hshift⟩ := shiftedColumns_run hedge hframes hbound h c (by omega)
    obtain ⟨z, hz, hnext⟩ := shiftedColumns_succ hedge hframes hbound (by omega) hshift
    exact ⟨z, (sysRun_add _ hy).trans hz, hnext⟩

/-- After a whole row the pair of column `c` stands at SR[63 - c] (10_state.md R51). -/
theorem shiftedColumns_full {s : State} {b : Bank} {y : System} (h : ShiftedColumns s b 64 y) (c : Fin 64) :
    HoldsPixels s b c y.panel.sr[63 - c.val] := by
  have hpair := h.pairs (63 - c.val) (by omega) (by omega)
  rwa [show 64 - 1 - (63 - c.val) = c.val by omega] at hpair

/-- Settles O53: the shift register holds the pair of each of the 64 columns. -/
theorem panelShiftRegisterHoldsTheRow : Obligations.PanelShiftRegisterHoldsTheRow := by
  intro prm x b hedge hprev hclk hframes hbound hfb hsched hph hcol
  have hstart : ShiftedColumns x.block b 0 x := ⟨rfl, rfl, rfl, hfb, hsched, hph, hcol, hclk, hprev, by simp⟩
  obtain ⟨y, hy, hshift⟩ := shiftedColumns_run hedge hframes hbound hstart 64 (le_refl _)
  exact ⟨y, hy, hshift.ph, hshift.row, fun c => ⟨(shiftedColumns_full hshift c).up, (shiftedColumns_full hshift c).lo⟩⟩

/-! ### The row end and the display -/

/-- The observed row end after `n` of its steps: CLK is at rest, so SR is kept; LATH copies it to OLAT. -/
structure ObservedRowEnd (s : State) (pairs : PairReg) (n : Nat) (y : System) : Prop where
  block   : y.block = rowEndState s n
  sr      : y.panel.sr = pairs
  prevLat : 1 ≤ n → y.panel.prevLat = y.block.line .lat
  olat    : 4 ≤ n → y.panel.olat = pairs

theorem rowEndState_clk (s : State) {n : Nat} (hn : n ≤ 6) : (rowEndState s n).line .clk = s.line .clk := by
  rcases Nat.eq_zero_or_pos n with rfl | hpos
  · rfl
  · have hlines := rowEndState_lines s
    simp only [List.forall_mem_cons] at hlines
    interval_cases n <;> simp [hlines]

/-- LAT is low before LATH, the fourth step of the row end, and high from it on. -/
theorem rowEndState_lat (s : State) {n : Nat} (hlow : 3 ≤ n) (hhigh : n ≤ 6) :
    (rowEndState s n).line .lat = decide (4 ≤ n) := by
  have hlines := rowEndState_lines s
  simp only [List.forall_mem_cons] at hlines
  interval_cases n <;> simp [hlines]

theorem observedRowEnd_succ {prm : PanelConfig} (hedge : prm.clkEdge = .rising) (hmode : prm.latMode = .rise)
    {s : State} {pairs : PairReg} {n : Nat} {y : System} (hframes : framesAdmitted s.mem) (hsched : s.sched = [])
    (hph : s.ph = Ph.blank) (hclk : s.line .clk = false) (hn : n < 6) (h : ObservedRowEnd s pairs n y) :
    ∃ z, y.run prm 1 = .next z ∧ ObservedRowEnd s pairs (n + 1) z := by
  obtain ⟨block, panel⟩ := y
  obtain ⟨rfl, hsr, hprevLat, holat⟩ := h
  obtain ⟨hmem, hs⟩ := rowEndState_mem_sched s (Nat.le_of_lt hn)
  have hstep := sysStep (prm := prm) (x := ⟨rowEndState s n, panel⟩) (hmem ▸ hframes) (hs.trans hsched)
    (rowEnd_sequencerTurn hph hn)
  have hsr' : (panel.observe prm (rowEndState s (n + 1)).out).sr = pairs :=
    (observe_sr_of_low hedge ((rowEndState_clk s (Nat.succ_le_of_lt hn)).trans hclk)).trans hsr
  refine ⟨_, sysRun_succ hstep, rfl, hsr', fun _ => rfl, fun hlath => ?_⟩
  have hbefore : panel.prevLat = decide (4 ≤ n) :=
    (hprevLat (by omega)).trans (rowEndState_lat s (by omega) (Nat.le_of_lt hn))
  by_cases h4 : 4 ≤ n
  · exact (observe_olat_of_high hmode (by simpa [h4] using hbefore)).trans (holat h4)
  · have hlat : (rowEndState s (n + 1)).line .lat = true := by
      rw [rowEndState_lat s (by omega) (Nat.succ_le_of_lt hn)]; simpa using hlath
    exact (observe_olat_of_rise hmode (by simpa [h4] using hbefore) hlat).trans hsr'

theorem observedRowEnd_run {prm : PanelConfig} (hedge : prm.clkEdge = .rising) (hmode : prm.latMode = .rise)
    {y : System} (hframes : framesAdmitted y.block.mem) (hsched : y.block.sched = []) (hph : y.block.ph = Ph.blank)
    (hclk : y.block.line .clk = false) :
    ∀ n, n ≤ 6 → ∃ z, y.run prm n = .next z ∧ ObservedRowEnd y.block y.panel.sr n z
  | 0, _ => ⟨y, rfl, rfl, rfl, by simp, by simp⟩
  | n + 1, hn => by
    obtain ⟨z, hz, hseen⟩ := observedRowEnd_run hedge hmode hframes hsched hph hclk n (by omega)
    obtain ⟨w, hw, hnext⟩ := observedRowEnd_succ hedge hmode hframes hsched hph hclk (by omega) hseen
    exact ⟨w, (sysRun_add _ hz).trans hw, hnext⟩

/-- Settles O54: the row end latches the shifted row, addresses it and unblanks, and O52 says what is then lit. -/
theorem panelDisplaysTheScannedRow : Obligations.PanelDisplaysTheScannedRow := by
  intro prm x b hedge hmode hprev hclk hframes hbound hfb hsched hph hcol
  have hstart : ShiftedColumns x.block b 0 x := ⟨rfl, rfl, rfl, hfb, hsched, hph, hcol, hclk, hprev, by simp⟩
  obtain ⟨y, hy, hshift⟩ := shiftedColumns_run hedge hframes hbound hstart 64 (le_refl _)
  obtain ⟨z, hz, hblock, -, -, holat⟩ := observedRowEnd_run hedge hmode (hshift.mem ▸ hframes) hshift.sched hshift.ph
    hshift.clk 6 (le_refl _)
  obtain ⟨hoe, -, haddr, -⟩ := rowEndState_lines y.block (6, false, true, y.block.row) (by simp)
  rw [← hblock] at hoe haddr
  replace haddr : addrOf z.block.out = x.block.row := haddr.trans hshift.row
  refine ⟨z, (sysRun_add _ hy).trans hz, hoe, haddr, fun half row column => ?_⟩
  rw [(panelShowsOnlyTheAddressedRow prm z.block.out z.panel half row column).2 hoe, haddr]
  refine and_congr_right fun hrow => ?_
  subst hrow
  have hpixel : ∀ c : Fin 64, pixelBit x.block.cfg.tbo x.block.mem b (bitPos half x.block.row.toNat c) = some true ↔
      (z.panel.olat[63 - c.val]).half half = true := by
    intro c
    rw [holdsPixels_half (shiftedColumns_full hshift c) half, Option.some_inj]
    simp only [holat (by decide)]
  constructor
  · rintro ⟨j, hmap, hlit⟩
    refine ⟨⟨63 - j.val, by omega⟩, ?_, (hpixel _).2 ?_⟩
    · simp only [show 63 - (63 - j.val) = j.val by omega]; exact hmap
    · simp only [show 63 - (63 - j.val) = j.val by omega]; exact hlit
  · rintro ⟨c, hmap, hlit⟩
    exact ⟨⟨63 - c.val, by omega⟩, hmap, (hpixel c).1 hlit⟩

end Sys2Proof.Proofs
